-- ==== Sys2Proof/Word.lean ====
section
/-! DEFINITION. The machine word of R7 and R21: a 32-bit pattern (the spec's decision D1), read as a
signed integer in two's complement (D2). -/

namespace Sys2Proof

/-- A machine word: register, memory cell and instruction alike (R7, R51). -/
abbrev Word := BitVec 32

/-- WMIN, the least register value (R6). -/
def wmin : Int := -2147483648

/-- WMAX, the greatest register value (R6). -/
def wmax : Int := 2147483647

/-- `val(w)` of R7: the signed integer a pattern denotes. -/
def val (w : Word) : Int := w.toInt

/-- `pat(v)` of R7: the pattern `v mod 2^32`. -/
def pat (v : Int) : Word := BitVec.ofInt 32 v

end Sys2Proof
end

