-- ==== Sys2Proof/Config.lean ====
section
/-! DEFINITION. The parameters of the block (R6). The sizes the spec fixes are constants. The two it
leaves OPEN, MEM_WORDS and MEM_INIT, are arguments of the model: they stand in the memory a state
holds, so that a statement about every state is a statement about every choice of them; the two
values below are only what `State.reset` takes for them. -/

namespace Sys2Proof.Config

/-- NREGS (R6). -/
def nregs : Nat := 16

/-- PC_REG, the index of the program counter (R6). -/
def pcReg : Nat := 15

/-- The least legal MEM_WORDS (R6, R50). -/
def memWordsMin : Nat := 1

/-- The greatest legal MEM_WORDS, 2^31 - 1 (R6, R50; D6). -/
def memWordsMax : Nat := 2147483647

/-- MEM_WORDS of `State.reset`. DESIGN CHOICE (log 2), unsafe: the spec leaves it open. -/
def resetMemWords : Nat := memWordsMax

/-- What a memory word that is not listed reads as: MEM_INIT of `State.reset` at every address.
DESIGN CHOICE (log 3), unsafe: the spec leaves MEM_INIT open. -/
def unlistedWord : Word := 0

end Sys2Proof.Config
end

