-- ==== Sys2Proof/Syntax.lean ====
section
/-! DEFINITION. The decoded instruction (R70): seven operations over one set of six fields. A register
index is a natural number and the offset an integer, so that an `Instr` built by hand can carry an
index outside 0 to 15, which R25 and R165 give a meaning (D29); `wellFormed` is R70's ranges. -/

namespace Sys2Proof

/-- The fields every instruction has beside its operation (R70). -/
structure Fields where
  /-- the condition mask, 4 bits -/
  cond : BitVec 4
  /-- `reg_target` -/
  target : Nat
  /-- `reg_src1` -/
  src1 : Nat
  /-- `reg_src2` -/
  src2 : Nat
  /-- the signed offset -/
  offset : Int
  deriving DecidableEq, Repr

/-- An `Instruction` (R70), one constructor per row of the opcode table (R74). -/
inductive Instr where
  | halt (f : Fields)
  | load (f : Fields)
  | store (f : Fields)
  | add (f : Fields)
  | sub (f : Fields)
  | mul (f : Fields)
  | div (f : Fields)
  deriving DecidableEq, Repr

/-- An operation code as the ALU is given one (R110): the seven, or any other number (R117). -/
inductive OpCode where
  | halt | load | store | add | sub | mul | div
  | other (n : Nat)
  deriving DecidableEq, Repr

/-- The operation field of an instruction (R70). -/
def Instr.op : Instr → OpCode
  | .halt _ => .halt
  | .load _ => .load
  | .store _ => .store
  | .add _ => .add
  | .sub _ => .sub
  | .mul _ => .mul
  | .div _ => .div

/-- The other five fields of an instruction (R70). -/
def Instr.fields : Instr → Fields
  | .halt f => f
  | .load f => f
  | .store f => f
  | .add f => f
  | .sub f => f
  | .mul f => f
  | .div f => f

end Sys2Proof
end

