-- ==== Sys2Proof/WellFormed.lean ====
section
/-! DEFINITION. The ranges R70 gives the fields of an instruction. The mask needs no check: its type has
the sixteen legal values (R75, D12). -/

namespace Sys2Proof

/-- Each register index is 0 to 15 and the offset is -512 to 511 (R70). -/
def Fields.wellFormed (f : Fields) : Bool :=
  decide (f.target < Config.nregs) && decide (f.src1 < Config.nregs) && decide (f.src2 < Config.nregs) &&
    decide (-512 ≤ f.offset) && decide (f.offset ≤ 511)

/-- An instruction whose fields have the ranges of R70. -/
def Instr.wellFormed (i : Instr) : Bool := i.fields.wellFormed

end Sys2Proof
end

