-- ==== Sys2Proof/Decode.lean ====
section
/-! DEFINITION. `Decode` (R76) and `Encode` (R77) over the one 32-bit format of R72. The layout and the
numbers are the spec's decisions D8 and D9, from general knowledge (log 4). -/

namespace Sys2Proof

/-- Why a word is no instruction (R78). -/
inductive DecodeError where
  /-- bit 31 is 1 -/
  | reservedBit
  /-- bits 30:26 are 4 or 8 to 31 -/
  | unassignedOperation (n : Nat)
  deriving DecidableEq, Repr

/-- The one verdict a 32-bit pattern gets (R76). -/
inductive Verdict where
  | instruction (i : Instr)
  | rejected (why : DecodeError)
  deriving DecidableEq, Repr

/-- `w[hi:lo]` of R7. -/
def slice (w : Word) (hi lo : Nat) : Nat := (w.toNat >>> lo) % 2 ^ (hi - lo + 1)

/-- `sext_10(f)` of R8. -/
def sext10 (n : Nat) : Int := if n < 512 then (n : Int) else (n : Int) - 1024

/-- The operation of a number (R74). -/
def opOfNumber : Nat → OpCode
  | 0 => .halt
  | 1 => .load
  | 2 => .store
  | 3 => .add
  | 5 => .sub
  | 6 => .mul
  | 7 => .div
  | n => .other n

/-- The number of an operation (R74). -/
def OpCode.number : OpCode → Nat
  | .halt => 0
  | .load => 1
  | .store => 2
  | .add => 3
  | .sub => 5
  | .mul => 6
  | .div => 7
  | .other n => n

/-- The five operand fields of a word, whatever its operation (R72, R73, R76). -/
def fieldsOf (w : Word) : Fields where
  cond := BitVec.ofNat 4 (slice w 25 22)
  target := slice w 21 18
  src1 := slice w 17 14
  src2 := slice w 13 10
  offset := sext10 (slice w 9 0)

/-- `Decode(w)` (R76): total, the illegal words rejected by name (R78). -/
def decode (w : Word) : Verdict :=
  if slice w 31 31 ≠ 0 then .rejected .reservedBit
  else
    match opOfNumber (slice w 30 26) with
    | .halt => .instruction (.halt (fieldsOf w))
    | .load => .instruction (.load (fieldsOf w))
    | .store => .instruction (.store (fieldsOf w))
    | .add => .instruction (.add (fieldsOf w))
    | .sub => .instruction (.sub (fieldsOf w))
    | .mul => .instruction (.mul (fieldsOf w))
    | .div => .instruction (.div (fieldsOf w))
    | .other n => .rejected (.unassignedOperation n)

/-- Does `Decode` reject the word (R78)? -/
def illegal (w : Word) : Bool :=
  match decode w with
  | .instruction _ => false
  | .rejected _ => true

/-- `Encode` (R77), as a number: `(n << 26) | (cond << 22) | … | (offset mod 1024)`. -/
def encodeNat (n : Nat) (f : Fields) : Nat :=
  (n <<< 26) ||| (f.cond.toNat <<< 22) ||| (f.target <<< 18) ||| (f.src1 <<< 14) ||| (f.src2 <<< 10) |||
    (f.offset % 1024).toNat

/-- `Encode` (R77): the word of an instruction with the ranges of R70. -/
def encode (i : Instr) : Word := BitVec.ofNat 32 (encodeNat i.op.number i.fields)

/-- The instruction of a table row's bits `w`: the row has `nbits` bits, the ones above are 0, and an
instruction is one 32-bit word (R71). -/
def decodeTableWord (nbits w : Nat) : Option Instr :=
  match decode (BitVec.ofNat 32 (w % 2 ^ nbits)) with
  | .instruction i => some i
  | .rejected _ => none

end Sys2Proof
end

