-- ==== Sys2Proof/Machine/Flags.lean ====
section
/-! DEFINITION. The condition flags: their bit values (R28), the class of a result (R113) and the
condition test (R94). -/

namespace Sys2Proof.Machine

/-- The four single flags (R27): negative, zero, positive, arithmetic error. -/
inductive Flag where
  | m | z | p | v
  deriving DecidableEq, Repr

/-- The bit values of R28 (D10, from general knowledge: log 4). -/
def Flag.bits : Flag → BitVec 4
  | .m => 1#4
  | .z => 2#4
  | .p => 4#4
  | .v => 8#4

/-- ALWAYS, the value of `CC` at reset and the mask that meets every flag (R28). -/
def ccAlways : BitVec 4 := 15#4

/-- NEVER, the empty mask (R28). -/
def maskNever : BitVec 4 := 0#4

/-- `class(e)` (R110, R113). -/
def classOf (e : Int) : Flag :=
  if e = 0 then .z else if e < 0 then .m else .p

/-- The condition test (R94): `(cond AND CC) ≠ 0`. -/
def conditionMet (cond cc : BitVec 4) : Bool := cond &&& cc != 0#4

/-- The five values `CC` may hold (R27, R28). -/
def ccLegal (cc : BitVec 4) : Bool :=
  cc == ccAlways || cc == Flag.m.bits || cc == Flag.z.bits || cc == Flag.p.bits || cc == Flag.v.bits

end Sys2Proof.Machine
end

