-- ==== Sys2Proof/Machine/Alu.lean ====
section
/-! DEFINITION. The arithmetic/logic unit (R110): a stateless function on exact integers. -/

namespace Sys2Proof.Machine

/-- Is the exact result a register value (R115)? -/
def fits (e : Int) : Bool := decide (wmin ≤ e) && decide (e ≤ wmax)

/-- The result of ADD, SUB, MUL and DIV from the exact integer (R113, R115; the overflow condition is
the spec's decision D3). -/
def rangeTested (e : Int) : Int × Flag := if fits e then (e, classOf e) else (0, .v)

/-- `ALU(op, in1, in2)` (R110): result and flag, or none where it raises UnsupportedOperation (R117). -/
def alu : OpCode → Int → Int → Option (Int × Flag)
  | .add, in1, in2 => some (rangeTested (in1 + in2))
  | .sub, in1, in2 => some (rangeTested (in1 - in2))
  | .mul, in1, in2 => some (rangeTested (in1 * in2))
  | .div, in1, in2 => some (if in2 = 0 then (0, .v) else rangeTested (in1.fdiv in2))
  | .load, in1, in2 => some (in1 + in2, classOf (in1 + in2))
  | .store, in1, in2 => some (in1 + in2, classOf (in1 + in2))
  | .halt, _, _ => some (0, .z)
  | .other _, _, _ => none

end Sys2Proof.Machine
end

