-- ==== Sys2Proof/Machine/Memory.lean ====
section
/-! DEFINITION. The memory collaborator (R50 to R53): one space of `size` 32-bit words addressed by word
index. The smallest unit is the word (R58), so a cell is an address and a word. The cells are kept in
one canonical form: addresses rising, all below `size`, no cell equal to what an unlisted word reads as. -/

namespace Sys2Proof.Machine

/-- Memory: the configured size MEM_WORDS, and the listed words. -/
structure Memory where
  /-- MEM_WORDS, a parameter of the block (R6, R50); no step changes it -/
  size : Nat
  /-- (address, word) -/
  cells : List (Nat × Word)
  deriving DecidableEq, Repr

/-- The word at an address in a list of cells; an unlisted word reads as `Config.unlistedWord`. -/
def lookupCell : List (Nat × Word) → Nat → Word
  | [], _ => Config.unlistedWord
  | c :: cs, a => if c.1 = a then c.2 else lookupCell cs a

/-- The cells without those at an address. -/
def removeCell : List (Nat × Word) → Nat → List (Nat × Word)
  | [], _ => []
  | c :: cs, a => if c.1 = a then removeCell cs a else c :: removeCell cs a

/-- A cell put before the first one of a greater address. -/
def insertCell : List (Nat × Word) → Nat → Word → List (Nat × Word)
  | [], a, w => [(a, w)]
  | c :: cs, a, w => if a < c.1 then (a, w) :: c :: cs else c :: insertCell cs a w

/-- The cells after a word is written: a word equal to the unlisted one is not listed. -/
def updateCell (cs : List (Nat × Word)) (a : Nat) (w : Word) : List (Nat × Word) :=
  if w = Config.unlistedWord then removeCell cs a else insertCell (removeCell cs a) a w

/-- The bounds contract (R50, R52, R53): `0 ≤ a < MEM_WORDS`, on the exact integer. -/
def Memory.inRange (m : Memory) (a : Int) : Bool := decide (0 ≤ a) && decide (a < m.size)

/-- `MemRead(a)` (R52): the word, or none where it raises AddressFault. -/
def Memory.read? (m : Memory) (a : Int) : Option Word :=
  if m.inRange a then some (lookupCell m.cells a.toNat) else none

/-- `MemWrite(a, v)` (R53): the memory after it, or none where it raises AddressFault. -/
def Memory.write? (m : Memory) (a : Int) (w : Word) : Option Memory :=
  if m.inRange a then some { m with cells := updateCell m.cells a.toNat w } else none

/-- Cells in canonical form, from address `lo` on. -/
def cellsWf (size : Nat) : Nat → List (Nat × Word) → Bool
  | _, [] => true
  | lo, c :: cs =>
    decide (lo ≤ c.1) && decide (c.1 < size) && decide (c.2 ≠ Config.unlistedWord) && cellsWf size (c.1 + 1) cs

/-- The size is one R50 allows and the cells are in canonical form. -/
def Memory.wf (m : Memory) : Bool :=
  decide (Config.memWordsMin ≤ m.size) && decide (m.size ≤ Config.memWordsMax) && cellsWf m.size 0 m.cells

/-- The memory of `State.reset`: nothing listed (log 2, log 3). -/
def Memory.initial : Memory := { size := Config.resetMemWords, cells := [] }

end Sys2Proof.Machine
end

