-- ==== Sys2Proof/Machine/State.lean ====
section
/-! DEFINITION. The whole state of the machine (R20) as plain data, its reset (R38), and the reasons a
step can stop. -/

namespace Sys2Proof.Machine

/-- Which access an `AddressFault` was raised at (R162). -/
inductive Access where
  | fetch | load | store
  deriving DecidableEq, Repr

/-- The four kinds of fault (R161 to R165); an `AddressFault` carries its access and the address. -/
inductive FaultKind where
  /-- a memory access below 0 or at or above MEM_WORDS (R162) -/
  | addressFault (access : Access) (addr : Int)
  /-- the fetched word is no instruction (R163) -/
  | decodeFault
  /-- the ALU was given an operation outside the seven (R164) -/
  | unsupportedOperation
  /-- a register index outside 0 to 15 (R165) -/
  | registerIndexFault
  deriving DecidableEq, Repr

/-- The record a `raise` leaves (R32, R160): kind (with the offending address), the pc at the fetch of the
faulting step, and the raw word, absent when the fetch itself failed (C11). -/
structure FaultRecord where
  kind : FaultKind
  pc : Word
  word : Option Word
  deriving DecidableEq, Repr

/-- The state (R20). Register 0 stores nothing; register 15 is the program counter (R24). -/
structure State where
  /-- `x[1]` to `x[15]`, in slots 0 to 14 (R20, R21) -/
  regs : Vector Word 15
  /-- `CC` (R27, R33) -/
  cc : BitVec 4
  /-- the halted flag (R31) -/
  halted : Bool
  /-- the terminal marker (R32) -/
  faulted : Option FaultRecord
  /-- the memory (R35), with its parameters MEM_WORDS and MEM_INIT -/
  mem : Memory
  deriving DecidableEq, Repr

/-- Why a step of the block answers no next state. Both are terminal states of the block itself, in which
the spec says it takes no step; no instruction raises either. -/
inductive Fault where
  /-- Raised by `step` on a block whose `faulted` marker is set (R32, R160: it takes no further step). Safe:
  the state with the record was reached by a step before, and nothing follows it. -/
  | faulted (r : FaultRecord)
  /-- Raised by `step` on a halted block (R31, R104: it takes no step until the next `run`). Safe: the
  final state was reached by the step before. -/
  | halted
  deriving DecidableEq, Repr

/-- Why something has no meaning. -/
inductive Refusal where
  /-- Raised by an arm of `exec` whose instruction has no meaning yet (there is none). Safe. -/
  | notModelled (mnemonic : String)
  /-- Raised by `runEntry`, the host's `run`, on a faulted block (R170, D26: it has no transition). Safe. -/
  | runOnFaultedBlock
  deriving DecidableEq, Repr

/-- The state after reset over a given memory (R38, R180, R181): the memory is the argument, its size
MEM_WORDS and its contents MEM_INIT. -/
def State.resetWith (m : Memory) : State where
  regs := Vector.replicate 15 0#32
  cc := ccAlways
  halted := false
  faulted := none
  mem := m

/-- The state after reset, over the memory the model names (log 2, log 3). It is also the state `run(0)`
starts from (log 14). -/
def State.reset : State := State.resetWith Memory.initial

end Sys2Proof.Machine
end

