-- ==== Sys2Proof/Machine/Ops.lean ====
section
/-! DEFINITION. The named operations on registers, flag, memory and marker. Raising a fault (R160) is one
operation here. There is no return from it beside it, because the machine has none (R170): only reset
clears the marker (R180, `State.resetWith`). -/

namespace Sys2Proof.Machine

/-- `x[i]` (R8, R21, R22): 0 for register 0. An index above 15 names no register and reads 0 here; the
machine reads registers through `readReg?`, which refuses it. -/
def State.reg (s : State) (i : Nat) : Word :=
  if i = 0 then 0#32 else s.regs[i - 1]?.getD 0#32

/-- The stored registers after `x[i] <- w`: nothing is kept for register 0 (R22) or an index above 15. -/
def writeSlot (regs : Vector Word 15) (i : Nat) (w : Word) : Vector Word 15 :=
  if i = 0 then regs else regs.setIfInBounds (i - 1) w

/-- `x[i] <- w` (R8, R22): register 0 accepts the write and keeps nothing; an index above 15 names no
register and nothing is written. -/
def State.setReg (s : State) (i : Nat) (w : Word) : State := { s with regs := writeSlot s.regs i w }

/-- A register read by an instruction: none is RegisterIndexFault (R25, R165). -/
def State.readReg? (s : State) (i : Nat) : Option Word :=
  if i < Config.nregs then some (s.reg i) else none

/-- A register write by an instruction: none is RegisterIndexFault (R25, R165). -/
def State.writeReg? (s : State) (i : Nat) (w : Word) : Option State :=
  if i < Config.nregs then some (s.setReg i w) else none

/-- `pc`, another name for `x[15]` (R24). -/
def State.pc (s : State) : Word := s.reg Config.pcReg

/-- `x[15] <- t`. -/
def State.setPc (s : State) (t : Word) : State := s.setReg Config.pcReg t

/-- The pc advance `x[15] <- a + 1` (R95, R99). Register arithmetic wraps only where the pc is
2^31 - 1, from which no fetch succeeds (R26, log 13). -/
def State.advancePc (s : State) : State := s.setPc (s.pc + 1#32)

/-- `CC <- flag` (R29). -/
def State.setCc (s : State) (c : BitVec 4) : State := { s with cc := c }

/-- The memory replaced. -/
def State.setMem (s : State) (m : Memory) : State := { s with mem := m }

/-- `halted <- b` (R31). -/
def State.setHalted (s : State) (b : Bool) : State := { s with halted := b }

/-- The marker replaced (R32). -/
def State.setFaulted (s : State) (r : Option FaultRecord) : State := { s with faulted := r }

/-- The word at the pc (R91): what the step's fetch reads, none where it raises AddressFault. -/
def State.fetch? (s : State) : Option Word := s.mem.read? (val s.pc)

/-- The record of a fault of the step that begins in `pre` (R160): the pc at its fetch and the word
fetched there, absent when the fetch failed. -/
def State.faultRecord (pre : State) (k : FaultKind) : FaultRecord :=
  { kind := k, pc := pre.pc, word := pre.fetch? }

/-- `raise k` in the step that began in `pre` and has come to `s` (R160, R167): what was done before stays,
the marker is set, nothing after it is done. -/
def State.raise (pre : State) (k : FaultKind) (s : State) : State :=
  s.setFaulted (some (pre.faultRecord k))

end Sys2Proof.Machine
end

