-- ==== Sys2Proof/Machine/Operands.lean ====
section
/-! DEFINITION. The one operand form (R73, R96, R97, R142). -/

namespace Sys2Proof.Machine

/-- `left = x[reg_src1]` and `right = x[reg_src2] + offset`, the exact sum (R96, R97; D4), read before the
pc advance; none where an index is no register (R165). -/
def sourceOperands (f : Fields) (s : State) : Option (Int × Int) :=
  match s.readReg? f.src1, s.readReg? f.src2 with
  | some a, some b => some (val a, val b + f.offset)
  | _, _ => none

end Sys2Proof.Machine
end

