-- ==== Sys2Proof/Machine/Perform.lean ====
section
/-! DEFINITION. What every instruction does once decoded (R90, stages 3 and 4): the condition test, the
skip, the source reads, the pc advance, the ALU, and then the operation's own action. -/

namespace Sys2Proof.Machine

/-- The execute stage up to the action (R98): (i) both source reads, (ii) the pc advance, (iii) the ALU.
`action` is given the state the step began in, the state after the advance, and the ALU's pair. -/
def executeStage (op : OpCode) (f : Fields) (action : State → State → Int → Flag → State) (s : State) : State :=
  match sourceOperands f s with
  | none => s.raise .registerIndexFault s
  | some (left, right) =>
    match alu op left right with
    | none => s.raise .unsupportedOperation s.advancePc
    | some (value, flag) => action s s.advancePc value flag

/-- One decoded instruction (R94, R95): executed when its mask meets `CC`, else skipped. -/
def perform (op : OpCode) (f : Fields) (action : State → State → Int → Flag → State) (s : State) :
    Host.Outcome State Fault Refusal :=
  .next (if conditionMet f.cond s.cc then executeStage op f action s else s.advancePc)

end Sys2Proof.Machine
end

