-- ==== Sys2Proof/Machine/Arithmetic.lean ====
section
/-! DEFINITION. ADD, SUB, MUL, DIV (R130 to R133): the ALU's value into the target register, then its flag
into `CC` (R100). -/

namespace Sys2Proof.Machine

/-- `x[reg_target] <- value ; CC <- flag` (R100). -/
def writeBack (f : Fields) (pre s : State) (value : Int) (flag : Flag) : State :=
  match s.writeReg? f.target (pat value) with
  | none => pre.raise .registerIndexFault s
  | some s' => s'.setCc flag.bits

/-- ADD (R130). -/
def execAdd (f : Fields) (s : State) : Host.Outcome State Fault Refusal := perform .add f (writeBack f) s

/-- SUB (R131). -/
def execSub (f : Fields) (s : State) : Host.Outcome State Fault Refusal := perform .sub f (writeBack f) s

/-- MUL (R132). -/
def execMul (f : Fields) (s : State) : Host.Outcome State Fault Refusal := perform .mul f (writeBack f) s

/-- DIV (R133). -/
def execDiv (f : Fields) (s : State) : Host.Outcome State Fault Refusal := perform .div f (writeBack f) s

end Sys2Proof.Machine
end

