-- ==== Sys2Proof/Machine/Halt.lean ====
section
/-! DEFINITION. HALT (R150). -/

namespace Sys2Proof.Machine

/-- `halted <- true`; the ALU's pair is discarded and the target field is ignored (R118, R150). -/
def haltBlock (s : State) : State := s.setHalted true

/-- HALT (R150). -/
def execHalt (f : Fields) (s : State) : Host.Outcome State Fault Refusal :=
  perform .halt f (fun _ s' _ _ => haltBlock s') s

end Sys2Proof.Machine
end

