-- ==== Sys2Proof/Machine/LoadStore.lean ====
section
/-! DEFINITION. LOAD and STORE (R140, R141): the ALU's value is the address, its flag the address's class. -/

namespace Sys2Proof.Machine

/-- `d <- MemRead(ea) ; x[reg_target] <- d ; CC <- flag` (R100, R140). -/
def loadWord (f : Fields) (pre s : State) (ea : Int) (flag : Flag) : State :=
  match s.mem.read? ea with
  | none => pre.raise (.addressFault .load ea) s
  | some d =>
    match s.writeReg? f.target d with
    | none => pre.raise .registerIndexFault s
    | some s' => s'.setCc flag.bits

/-- `d <- x[reg_target] ; MemWrite(ea, d) ; CC <- flag`, the register read after the pc advance (R100,
R141; D25). -/
def storeWord (f : Fields) (pre s : State) (ea : Int) (flag : Flag) : State :=
  match s.readReg? f.target with
  | none => pre.raise .registerIndexFault s
  | some d =>
    match s.mem.write? ea d with
    | none => pre.raise (.addressFault .store ea) s
    | some m => (s.setMem m).setCc flag.bits

/-- LOAD (R140). -/
def execLoad (f : Fields) (s : State) : Host.Outcome State Fault Refusal := perform .load f (loadWord f) s

/-- STORE (R141). -/
def execStore (f : Fields) (s : State) : Host.Outcome State Fault Refusal := perform .store f (storeWord f) s

end Sys2Proof.Machine
end

