-- ==== Sys2Proof/Machine/Cycle.lean ====
section
/-! DEFINITION. `Step` of R90: fetch, decode, then the decoded instruction; the event of R93; and the
guard under which the block takes a step (R104). -/

namespace Sys2Proof.Machine

/-- `Step` (R90) as a function of its own: it looks at neither `halted` nor `faulted` (R104). -/
def cycle (s : State) : Host.Outcome State Fault Refusal :=
  match s.fetch? with
  | none => .next (s.raise (.addressFault .fetch (val s.pc)) s)
  | some w =>
    match decode w with
    | .rejected _ => .next (s.raise .decodeFault s)
    | .instruction i => exec i s

/-- The block takes a step exactly while it is neither faulted nor halted (R32, R104). -/
def blockStep (s : State) : Host.Outcome State Fault Refusal :=
  match s.faulted with
  | some r => .fault (.faulted r)
  | none => if s.halted then .fault .halted else cycle s

/-- The event of one step (R12, R93): the pc at the fetch, the raw word and the decoded instruction. -/
structure StepEvent where
  pc : Word
  word : Word
  instr : Instr
  deriving DecidableEq, Repr

/-- The event the step from `s` emits, before anything changes: one per step whose fetch and decode both
succeed, none else (R93). A function of the state; no rule reads it (D23). -/
def stepEvent (s : State) : Option StepEvent :=
  if s.faulted.isSome || s.halted then none
  else
    match s.fetch? with
    | none => none
    | some w =>
      match decode w with
      | .rejected _ => none
      | .instruction i => some { pc := s.pc, word := w, instr := i }

/-- `s` with a word where the next step fetches, and with what that fetch needs: the block running, and
the pc inside memory (log 17). -/
def placeFetchWord (s : State) (w : Word) : State :=
  let s := (s.setHalted false).setFaulted none
  match s.mem.write? (val s.pc) w with
  | some m => s.setMem m
  | none =>
    match s.mem.write? 0 w with
    | some m => (s.setPc 0#32).setMem m
    | none => s

end Sys2Proof.Machine
end

