-- ==== Sys2Proof/Machine/Step.lean ====
section
/-! DEFINITION. One step of the block, and the host's way to place an instruction. -/

namespace Sys2Proof.Machine

/-- One step of the block (R90, R104). -/
def step (s : State) : Host.Outcome State Fault Refusal := blockStep s

/-- `s` with the instruction of a table row's bits placed where `step` fetches next. -/
def State.withFetchWord (s : State) (nbits w : Nat) : State :=
  placeFetchWord s (BitVec.ofNat 32 (w % 2 ^ nbits))

end Sys2Proof.Machine
end

