-- ==== Sys2Proof/Machine/Actions.lean ====
section
/-! DEFINITION. The table of R100: the action of each instruction once the ALU has answered. -/

namespace Sys2Proof.Machine

/-- The action of an instruction (R100): from the state the step began in, the state after the pc advance,
and the ALU's pair, the state the instruction leaves. -/
def actionOf : Instr → State → State → Int → Flag → State
  | .halt _ => fun _ s _ _ => haltBlock s
  | .load f => loadWord f
  | .store f => storeWord f
  | .add f => writeBack f
  | .sub f => writeBack f
  | .mul f => writeBack f
  | .div f => writeBack f

/-- What an instruction whose condition test passes leaves (R90, stage 4): the execute stage with its own
operation, fields and action. -/
def executed (i : Instr) (s : State) : State := executeStage i.op i.fields (actionOf i) s

end Sys2Proof.Machine
end

