-- ==== Sys2Proof/Machine/HostPort.lean ====
section
/-! DEFINITION. What the host may do to the block between steps: reset it, load and read its memory, and
`run` it (R13, R66, R180, R183, R186), with the run loop of R103 under a bound on the number of steps. What
`run` and a memory write do where the spec gives the host neither is log 23. -/

namespace Sys2Proof.Machine

/-- Reset of a block: a new CPU over the same memory (R180, R181). -/
def resetBlock (s : State) : State := State.resetWith s.mem

/-- The host writes a memory word before or between runs (R66, R186); none outside memory (R53). DESIGN CHOICE
(log 23), unsafe: on a block whose run has neither halted nor faulted the word is written all the same. -/
def hostPut (s : State) (a : Int) (w : Word) : Option State := (s.mem.write? a w).map s.setMem

/-- The host reads a memory word after a run (R66, R186); none outside memory (R52). -/
def hostGet (s : State) (a : Int) : Option Word := s.mem.read? a

/-- The entry of `run(from_address)` (R183): `halted <- false ; x[15] <- from_address`, nothing else. On a
faulted block it has no transition (R170). DESIGN CHOICE (log 23), unsafe: on a block whose run has neither
halted nor faulted, in progress or cancelled, it has the same effect. -/
def runEntry (fromAddress : Word) (s : State) : Host.Outcome State Fault Refusal :=
  match s.faulted with
  | some _ => .refused .runOnFaultedBlock
  | none => .next ((s.setHalted false).setPc fromAddress)

/-- The loop of `run` (R103), at most `k` steps: it stops in the state in which the block takes no step. -/
def runLoop : Nat → State → State
  | 0, s => s
  | k + 1, s =>
    match step s with
    | .next t => runLoop k t
    | .fault _ => s
    | .refused _ => s

/-- `run(from_address = 0)` (R103, R183), observed after at most `k` steps. `single_step` has no state and
no effect (R13, D24). -/
def run (k : Nat) (s : State) (fromAddress : Word := 0#32) : Host.Outcome State Fault Refusal :=
  match runEntry fromAddress s with
  | .next t => .next (runLoop k t)
  | .fault r => .fault r
  | .refused r => .refused r

/-- How a run stands (R185): ended well, ended badly, or not ended. -/
inductive RunEnd where
  | halted | faulted | running
  deriving DecidableEq, Repr

/-- The end of a run as its state shows it (R185). -/
def State.runEnd (s : State) : RunEnd :=
  if s.faulted.isSome then .faulted else if s.halted then .halted else .running

end Sys2Proof.Machine
end

