-- ==== Sys2Proof/Safety.lean ====
section
/-! DEFINITION. The words claims are stated in: what an executed instruction may change, what a fault
leaves behind (R167), and the invariant every step keeps. -/

namespace Sys2Proof.Safety

open Sys2Proof.Machine

/-- The block takes a step exactly while it is neither halted nor faulted (R104). -/
def Running (s : State) : Prop := s.halted = false ∧ s.faulted = none

/-- The condition test passes (R94): the instruction is executed. -/
def Executes (f : Fields) (s : State) : Prop := f.cond &&& s.cc ≠ 0#4

/-- The second operand, the exact sum `x[reg_src2] + offset` (R97). -/
def secondOperand (f : Fields) (s : State) : Int := val (s.reg f.src2) + f.offset

/-- The effective address `x[reg_src1] + x[reg_src2] + offset`, exact (R54, R142). -/
def effectiveAddress (f : Fields) (s : State) : Int := val (s.reg f.src1) + secondOperand f s

/-- An address outside `[0, MEM_WORDS - 1]` (R52, R53). -/
def Outside (s : State) (a : Int) : Prop := a < 0 ∨ (s.mem.size : Int) ≤ a

/-- Z, M or P by sign, in the bits of R28: the class of a result (R113). -/
def classBits (e : Int) : BitVec 4 := if e = 0 then 2#4 else if e < 0 then 1#4 else 4#4

/-- Is an exact integer a register value (R21)? -/
def Representable (e : Int) : Prop := -2147483648 ≤ e ∧ e ≤ 2147483647

/-- The value and flag an arithmetic instruction leaves for the exact result `e`: `e` and its class where
it is representable, else 0 and V (R113, R115). -/
def ResultOf (e : Int) (value : Word) (cc : BitVec 4) : Prop :=
  (Representable e → val value = e ∧ cc = classBits e) ∧ (¬Representable e → value = 0#32 ∧ cc = 8#4)

/-- Memory is the same: its size, and every word. -/
def MemUnchanged (s t : State) : Prop :=
  t.mem.size = s.mem.size ∧ ∀ a : Int, t.mem.read? a = s.mem.read? a

/-- Registers 0 to 14 are the same. -/
def LowRegsUnchanged (s t : State) : Prop := ∀ r, r < 15 → t.reg r = s.reg r

/-- What an executed instruction that writes `reg_target` and `CC` leaves: the target holds `value` unless
it is register 0, the pc is one further unless it is the target, and nothing else has changed (R100). -/
def TargetEffect (f : Fields) (s t : State) (value : Word) (cc : BitVec 4) : Prop :=
  (f.target ≠ 0 → t.reg f.target = value) ∧ t.reg 0 = 0#32 ∧
  (f.target ≠ 15 → t.pc = s.pc + 1#32) ∧
  (∀ r, r < 16 → r ≠ f.target → r ≠ 15 → t.reg r = s.reg r) ∧
  t.cc = cc ∧ t.halted = s.halted ∧ t.faulted = s.faulted ∧ MemUnchanged s t

/-- What a fault of the step that begins in `s` leaves (R160, R167): the record, the pc given, and
everything else as it was. -/
def FaultsWith (s t : State) (k : FaultKind) (pc : Word) : Prop :=
  t.faulted = some { kind := k, pc := s.pc, word := s.mem.read? (val s.pc) } ∧ t.pc = pc ∧
  LowRegsUnchanged s t ∧ t.cc = s.cc ∧ t.halted = s.halted ∧ MemUnchanged s t

/-- An instruction with other fields. -/
def withFields : Instr → Fields → Instr
  | .halt _, g => .halt g
  | .load _, g => .load g
  | .store _, g => .store g
  | .add _, g => .add g
  | .sub _, g => .sub g
  | .mul _, g => .mul g
  | .div _, g => .div g

/-- The instructions that write `CC` when executed (R29). -/
def WritesFlag : Instr → Prop
  | .halt _ => False
  | .load _ => True
  | .store _ => True
  | .add _ => True
  | .sub _ => True
  | .mul _ => True
  | .div _ => True

/-- The instructions that write `reg_target` when executed (R23). -/
def WritesTarget : Instr → Prop
  | .halt _ => False
  | .load _ => True
  | .store _ => False
  | .add _ => True
  | .sub _ => True
  | .mul _ => True
  | .div _ => True

/-- What a fault record says of the faulted state `s` it stands in (R160 to R163, R167). A fetch outside
memory has no word. Else the word is the one memory holds at the record's pc: one `Decode` rejects, or an
executed LOAD or STORE whose effective address, formed with the pc at its fetch, is the record's address
and outside memory. The pc of `s` is that of R167. The two kinds `Decode` makes unreachable (R164, R165)
never occur. -/
def recordOk (s : State) (r : FaultRecord) : Bool :=
  match r.kind, r.word with
  | .addressFault .fetch a, none => s.pc == r.pc && a == val r.pc && !s.mem.inRange a
  | .addressFault .load a, some w =>
    s.pc == r.pc + 1#32 && s.mem.read? (val r.pc) == some w && !s.mem.inRange a &&
      (match decode w with
       | .instruction (.load f) => conditionMet f.cond s.cc && a == effectiveAddress f (s.setPc r.pc)
       | _ => false)
  | .addressFault .store a, some w =>
    s.pc == r.pc + 1#32 && s.mem.read? (val r.pc) == some w && !s.mem.inRange a &&
      (match decode w with
       | .instruction (.store f) => conditionMet f.cond s.cc && a == effectiveAddress f (s.setPc r.pc)
       | _ => false)
  | .decodeFault, some w => s.pc == r.pc && s.mem.read? (val r.pc) == some w && illegal w
  | _, _ => false

/-- The invariant of the block: memory in canonical form with a size R50 allows, `CC` one of its five
values (R27), never both halted and faulted (R160), and a fault record that is true of the state. The canonical form is
the model's own (log 1). -/
def inv (s : State) : Bool :=
  s.mem.wf && ccLegal s.cc && !(s.halted && s.faulted.isSome) &&
    (match s.faulted with
     | none => true
     | some r => recordOk s r)

end Sys2Proof.Safety
end

