-- ==== Sys2Proof/Certificates/Slice0/Obligations.lean ====
section
/-! DEFINITION. The statements for the provers. Each docstring names the rule of spec/ it formalises; where
a clause rests on a decision or an inference of the spec's own, or on a choice of this model, it says so. -/

open Sys2Proof Sys2Proof.Machine Sys2Proof.Safety

/-! ### encoding -/

/-- R77: `Encode` is the formula of the rule, and `Decode` of it gives the instruction back, with every
operand at every value R70 admits. The layout is the spec's decision D8 (log 4). -/
def Obligations.DecodeAndEncodeAgree : Prop :=
  ∀ i : Instr, i.wellFormed = true →
    decode (encode i) = .instruction i ∧
    (encode i).toNat = ((i.op.number <<< 26) ||| (i.fields.cond.toNat <<< 22) ||| (i.fields.target <<< 18) |||
      (i.fields.src1 <<< 14) ||| (i.fields.src2 <<< 10) ||| (i.fields.offset % 1024).toNat)

/-- The spec's own derivation in 30_encoding section 5, "Conversely `Encode(Decode(w)) = w` for every `w` that
`Decode` accepts": no bit of an accepted word is dropped. -/
def Obligations.EncodeOfADecodedWordIsTheWord : Prop :=
  ∀ (w : Word) (i : Instr), decode w = .instruction i → i.wellFormed = true ∧ encode i = w

/-- R78 and R163: the illegal words are exactly those with bit 31 set, the negative register values, and
those of operation 4 or 8 to 31; fetching one raises DecodeFault with nothing changed, whatever its mask
and `CC`, the record carries the pc and the word, and no other word raises it; a field an operation does
not use, HALT's target, is ignored. -/
def Obligations.IllegalWordsRaiseDecodeFault : Prop :=
  (∀ w : Word, (∃ e, decode w = .rejected e) ↔
    (val w < 0 ∨ (w.extractLsb' 26 5).toNat = 4 ∨ 8 ≤ (w.extractLsb' 26 5).toNat)) ∧
  (∀ (s : State) (w : Word), Running s → s.mem.read? (val s.pc) = some w → (∃ e, decode w = .rejected e) →
    ∃ t, step s = .next t ∧ FaultsWith s t .decodeFault s.pc) ∧
  (∀ (s t : State) (r : FaultRecord), step s = .next t → t.faulted = some r → r.kind = .decodeFault →
    ∃ w e, s.mem.read? (val s.pc) = some w ∧ decode w = .rejected e) ∧
  (∀ (f : Fields) (k : Nat) (s : State), exec (.halt { f with target := k }) s = exec (.halt f) s)

/-- R72: where each field of a decoded word lies, with bit 31 zero. -/
def Obligations.DecodedFieldsAreTheWordsBits : Prop :=
  ∀ (w : Word) (i : Instr), decode w = .instruction i →
    w.getLsbD 31 = false ∧ i.op.number = (w.extractLsb' 26 5).toNat ∧ i.fields.cond = w.extractLsb' 22 4 ∧
    i.fields.target = (w.extractLsb' 18 4).toNat ∧ i.fields.src1 = (w.extractLsb' 14 4).toNat ∧
    i.fields.src2 = (w.extractLsb' 10 4).toNat ∧ i.fields.offset = (w.extractLsb' 0 10).toInt ∧
    i.wellFormed = true

/-- Words written out in table E of the test vectors, one of each operation, decode as it says. -/
def Obligations.WrittenOutWordsDecode : Prop :=
  decode 0x03C00000#32 = .instruction (.halt ⟨15#4, 0, 0, 0, 0⟩) ∧
  decode 0x048403FF#32 = .instruction (.load ⟨2#4, 1, 0, 0, -1⟩) ∧
  decode 0x0BFC0008#32 = .instruction (.store ⟨15#4, 15, 0, 0, 8⟩) ∧
  decode 0x0D3FC3FE#32 = .instruction (.add ⟨4#4, 15, 15, 0, -2⟩) ∧
  decode 0x16BB71FF#32 = .instruction (.sub ⟨10#4, 14, 13, 12, 511⟩) ∧
  decode 0x1BFFFE00#32 = .instruction (.mul ⟨15#4, 15, 15, 15, -512⟩) ∧
  decode 0x1C594002#32 = .instruction (.div ⟨1#4, 6, 5, 0, 2⟩) ∧
  decode 0x10000000#32 = .rejected (.unassignedOperation 4) ∧ decode 0xFFFFFFFF#32 = .rejected .reservedBit

/-! ### the step -/

/-- 40_step_cycle section 1 (R90): on a running block whose word at the pc decodes, `step` is `exec` of the
instruction at that same state, with nothing around it, and the event is (pc, word, instruction). -/
def Obligations.StepRunsTheDecodedInstruction : Prop :=
  ∀ (s : State) (w : Word) (i : Instr), Running s → s.mem.read? (val s.pc) = some w →
    decode w = .instruction i → step s = exec i s ∧ stepEvent s = some { pc := s.pc, word := w, instr := i }

/-- R91: a fetch at a pc below 0 or at or above MEM_WORDS raises AddressFault with nothing changed and no
word in the record; at any other pc the word of memory at that moment is what is fetched. -/
def Obligations.FetchOutsideMemoryFaults : Prop :=
  (∀ s : State, Running s → Outside s (val s.pc) →
    ∃ t, step s = .next t ∧ FaultsWith s t (.addressFault .fetch (val s.pc)) s.pc ∧
      s.mem.read? (val s.pc) = none) ∧
  (∀ s : State, ¬Outside s (val s.pc) → ∃ w, s.mem.read? (val s.pc) = some w ∧ s.fetch? = some w)

/-- R94: on `CC` before the step, an instruction with `(cond AND CC) ≠ 0` runs the execute stage with its own
operation, fields and action, and any other is the skip of R95; and the mask has no other effect, the one
acting as with mask ALWAYS, the other as with NEVER. Its consequences are `MaskBitsDecideExecution`. -/
def Obligations.ConditionTestDecidesExecution : Prop :=
  ∀ (i : Instr) (s : State),
    (i.fields.cond &&& s.cc ≠ 0#4 → exec i s = .next (executed i s) ∧
      exec i s = exec (withFields i { i.fields with cond := 15#4 }) s) ∧
    (i.fields.cond &&& s.cc = 0#4 → exec i s = .next s.advancePc ∧
      exec i s = exec (withFields i { i.fields with cond := 0#4 }) s)

/-- 40_step_cycle section 2, stage 3, the consequences the spec derives, of `exec`: while `CC` is ALWAYS every
mask but 0 executes; under a single flag exactly the masks with its bit; mask 0 never, mask 15 under every
legal `CC`. An instruction that does not execute is the skip. -/
def Obligations.MaskBitsDecideExecution : Prop :=
  ∀ (i : Instr) (s : State),
    (s.cc = 15#4 → exec i s = .next (if i.fields.cond = 0#4 then s.advancePc else executed i s)) ∧
    (∀ b, b < 4 → s.cc = 1#4 <<< b →
      exec i s = .next (if i.fields.cond.getLsbD b then executed i s else s.advancePc)) ∧
    (i.fields.cond = 0#4 → exec i s = .next s.advancePc) ∧
    (i.fields.cond = 15#4 → ccLegal s.cc = true → exec i s = .next (executed i s))

/-- R95: an instruction whose test fails, whichever it is and whatever its operands, advances the pc by 1
and changes nothing else; it raises nothing. -/
def Obligations.SkippedInstructionOnlyAdvancesPc : Prop :=
  ∀ (i : Instr) (s : State), i.fields.cond &&& s.cc = 0#4 →
    ∃ t, exec i s = .next t ∧ t.pc = s.pc + 1#32 ∧ LowRegsUnchanged s t ∧ t.cc = s.cc ∧
      t.halted = s.halted ∧ t.faulted = s.faulted ∧ MemUnchanged s t

/-- R96 and R97: an executed instruction hands the ALU `x[reg_src1]` and the exact sum `x[reg_src2] + offset`
of the state before the pc advance, register 15 giving the instruction's own address and register 0 zero,
and its action then works on the state after the advance; the sum is in [-2^31 - 512, 2^31 + 510]. -/
def Obligations.OperandsAreReadBeforeTheAdvance : Prop :=
  ∀ (i : Instr) (s : State), i.wellFormed = true → Executes i.fields s →
    ∃ l r v fl, l = val (s.reg i.fields.src1) ∧ r = val (s.reg i.fields.src2) + i.fields.offset ∧
      alu i.op l r = some (v, fl) ∧ exec i s = .next (actionOf i s s.advancePc v fl) ∧
      (i.fields.src1 = 0 → l = 0) ∧ (i.fields.src1 = 15 → l = val s.pc) ∧
      (i.fields.src2 = 0 → r = i.fields.offset) ∧ (i.fields.src2 = 15 → r = val s.pc + i.fields.offset) ∧
      -2147484160 ≤ r ∧ r ≤ 2147484158

/-! ### the arithmetic instructions -/

/-- R130 (overflow is the spec's decision D3). -/
def Obligations.AddWritesSumAndFlag : Prop :=
  (∀ (f : Fields) (s : State), f.wellFormed = true → Executes f s →
    ∃ t value cc, exec (.add f) s = .next t ∧ TargetEffect f s t value cc ∧
      ResultOf (val (s.reg f.src1) + secondOperand f s) value cc) ∧
  (∀ f : Fields, f.wellFormed = true → encode (.add f) &&& 0xFC000000#32 = 0x0C000000#32) ∧
  encode (.add ⟨15#4, 3, 1, 2, 10⟩) = 0x0FCC480A#32

/-- R131 (overflow is the spec's decision D3). -/
def Obligations.SubWritesDifferenceAndFlag : Prop :=
  (∀ (f : Fields) (s : State), f.wellFormed = true → Executes f s →
    ∃ t value cc, exec (.sub f) s = .next t ∧ TargetEffect f s t value cc ∧
      ResultOf (val (s.reg f.src1) - val (s.reg f.src2) - f.offset) value cc) ∧
  (∀ f : Fields, f.wellFormed = true → encode (.sub f) &&& 0xFC000000#32 = 0x14000000#32) ∧
  encode (.sub ⟨15#4, 0, 1, 2, 0⟩) = 0x17C04800#32

/-- R132 (overflow is the spec's decision D3). -/
def Obligations.MulWritesProductAndFlag : Prop :=
  (∀ (f : Fields) (s : State), f.wellFormed = true → Executes f s →
    ∃ t value cc, exec (.mul f) s = .next t ∧ TargetEffect f s t value cc ∧
      ResultOf (val (s.reg f.src1) * secondOperand f s) value cc) ∧
  (∀ f : Fields, f.wellFormed = true → encode (.mul f) &&& 0xFC000000#32 = 0x18000000#32) ∧
  encode (.mul ⟨15#4, 3, 1, 2, 0⟩) = 0x1BCC4800#32

/-- R133, with the quotient as the floor of the rational (R7); the overflow is the spec's decision D3. -/
def Obligations.DivWritesFloorQuotientAndFlag : Prop :=
  (∀ (f : Fields) (s : State), f.wellFormed = true → Executes f s →
    ∃ t value cc, exec (.div f) s = .next t ∧ TargetEffect f s t value cc ∧
      (secondOperand f s = 0 → value = 0#32 ∧ cc = 8#4) ∧
      (secondOperand f s ≠ 0 →
        ResultOf ⌊(val (s.reg f.src1) : ℚ) / (secondOperand f s : ℚ)⌋ value cc)) ∧
  (∀ f : Fields, f.wellFormed = true → encode (.div f) &&& 0xFC000000#32 = 0x1C000000#32) ∧
  encode (.div ⟨15#4, 6, 5, 0, 2⟩) = 0x1FD94002#32

/-- 42_arithmetic, the paragraph on what the four have in common (the spec's derivation): an executed one
never faults, touches neither memory nor `halted`, and leaves a single flag that is V or the class of
the value written. -/
def Obligations.ArithmeticValueAndFlagAgree : Prop :=
  ∀ (f : Fields) (s t : State) (i : Instr), f.wellFormed = true → Executes f s →
    i = .add f ∨ i = .sub f ∨ i = .mul f ∨ i = .div f → exec i s = .next t →
      t.faulted = s.faulted ∧ t.halted = s.halted ∧ MemUnchanged s t ∧
      (t.cc = 1#4 ∨ t.cc = 2#4 ∨ t.cc = 4#4 ∨ t.cc = 8#4) ∧
      (f.target ≠ 0 → (t.cc = 8#4 ∧ t.reg f.target = 0#32) ∨ t.cc = classBits (val (t.reg f.target)))

/-! ### the ALU -/

/-- R113: a flag that is not V is the class of the result, and V comes with result 0. -/
def Obligations.FlagClassifiesTheResult : Prop :=
  ∀ (op : OpCode) (in1 in2 e : Int) (fl : Flag), alu op in1 in2 = some (e, fl) →
    (fl = .v → e = 0) ∧
    (fl ≠ .v → (fl = .z ↔ e = 0) ∧ (fl = .m ↔ e < 0) ∧ (fl = .p ↔ 0 < e))

/-- R114: a DIV whose second operand, register and offset together, is 0 writes 0 and V and raises nothing;
with any other divisor V comes only from WMIN divided by -1. -/
def Obligations.DivisionByZeroIsFlaggedNotFatal : Prop :=
  (∀ x : Int, alu .div x 0 = some (0, .v)) ∧
  (∀ (f : Fields) (s : State), f.wellFormed = true → Executes f s →
    ∃ t, exec (.div f) s = .next t ∧ t.faulted = s.faulted ∧
      (secondOperand f s = 0 → t.cc = 8#4 ∧ (f.target ≠ 0 → t.reg f.target = 0#32)) ∧
      (secondOperand f s ≠ 0 → ¬(val (s.reg f.src1) = -2147483648 ∧ secondOperand f s = -1) → t.cc ≠ 8#4))

/-- R115 (the overflow condition is the spec's decision D3): out of range, 0 and V; in range, the exact
result and its class; for DIV the only overflow is WMIN by -1. -/
def Obligations.OverflowGivesZeroAndV : Prop :=
  (∀ (op : OpCode) (in1 in2 e : Int),
    ((op = .add ∧ e = in1 + in2) ∨ (op = .sub ∧ e = in1 - in2) ∨ (op = .mul ∧ e = in1 * in2) ∨
      (op = .div ∧ in2 ≠ 0 ∧ e = ⌊(in1 : ℚ) / (in2 : ℚ)⌋)) →
    (¬Representable e → alu op in1 in2 = some (0, .v)) ∧
    (Representable e → ∃ fl, alu op in1 in2 = some (e, fl) ∧ fl.bits = classBits e)) ∧
  (∀ in1 in2 : Int, Representable in1 → in2 ≠ 0 →
    (¬Representable ⌊(in1 : ℚ) / (in2 : ℚ)⌋ ↔ in1 = -2147483648 ∧ in2 = -1))

/-- 41_alu section 3 (the spec's derivation): the quotient leaves a remainder smaller than the divisor and of
its sign, or zero. -/
def Obligations.FloorQuotientLeavesRemainderOfDivisorsSign : Prop :=
  ∀ (in1 in2 q : Int) (fl : Flag), alu .div in1 in2 = some (q, fl) → fl ≠ .v →
    ∃ r, in1 = q * in2 + r ∧ |r| < |in2| ∧ (r = 0 ∨ (0 < r ∧ 0 < in2) ∨ (r < 0 ∧ in2 < 0))

/-- R117 and R164: the ALU rejects exactly the operations outside the seven; an executed instruction with
such an operation faults at the ALU, after the pc advance, whatever its action; no step of the block
ever does. -/
def Obligations.UnsupportedOperationIsFatal : Prop :=
  (∀ (op : OpCode) (in1 in2 : Int), alu op in1 in2 = none ↔
    ¬(op = .add ∨ op = .sub ∨ op = .mul ∨ op = .div ∨ op = .load ∨ op = .store ∨ op = .halt)) ∧
  (∀ (n : Nat) (f : Fields) (action : State → State → Int → Flag → State) (s : State),
    f.src1 < 16 → f.src2 < 16 → Executes f s →
    ∃ t, perform (.other n) f action s = .next t ∧ FaultsWith s t .unsupportedOperation (s.pc + 1#32)) ∧
  (∀ (s t : State) (r : FaultRecord), step s = .next t → t.faulted = some r → r.kind ≠ .unsupportedOperation)

/-- R118: HALT's ALU pair is (0, Z), and its operands change nothing about what it does. -/
def Obligations.HaltIgnoresItsOperands : Prop :=
  (∀ in1 in2 : Int, alu .halt in1 in2 = some (0, .z)) ∧
  (∀ (f g : Fields) (s t : State), f.src1 < 16 → f.src2 < 16 → g.src1 < 16 → g.src2 < 16 → f.cond = g.cond →
    exec (.halt f) s = .next t → exec (.halt g) s = .next t ∧ LowRegsUnchanged s t ∧ t.cc = s.cc ∧ MemUnchanged s t)

/-! ### memory instructions -/

/-- R140. -/
def Obligations.LoadReadsMemoryIntoTarget : Prop :=
  (∀ (f : Fields) (s : State), f.wellFormed = true → Executes f s → ¬Outside s (effectiveAddress f s) →
    ∃ t d, exec (.load f) s = .next t ∧ s.mem.read? (effectiveAddress f s) = some d ∧
      TargetEffect f s t d (if effectiveAddress f s = 0 then 2#4 else 4#4)) ∧
  (∀ (f : Fields) (s : State), f.wellFormed = true → Executes f s → Outside s (effectiveAddress f s) →
    ∃ t, exec (.load f) s = .next t ∧
      FaultsWith s t (.addressFault .load (effectiveAddress f s)) (s.pc + 1#32)) ∧
  (∀ f : Fields, f.wellFormed = true → encode (.load f) &&& 0xFC000000#32 = 0x04000000#32) ∧
  encode (.load ⟨15#4, 1, 0, 0, 9⟩) = 0x07C40009#32

/-- R141; that register 15 as the target stores the address of the next instruction is the spec's
decision D25. The one word stored is at the effective address; every other address reads as before. -/
def Obligations.StoreWritesTargetIntoMemory : Prop :=
  (∀ (f : Fields) (s : State), f.wellFormed = true → Executes f s → ¬Outside s (effectiveAddress f s) →
    ∃ t, exec (.store f) s = .next t ∧
      t.mem.read? (effectiveAddress f s) = some (if f.target = 15 then s.pc + 1#32 else s.reg f.target) ∧
      (∀ a : Int, a ≠ effectiveAddress f s → t.mem.read? a = s.mem.read? a) ∧ t.mem.size = s.mem.size ∧
      t.cc = (if effectiveAddress f s = 0 then 2#4 else 4#4) ∧ t.pc = s.pc + 1#32 ∧ LowRegsUnchanged s t ∧
      t.halted = s.halted ∧ t.faulted = s.faulted) ∧
  (∀ (f : Fields) (s : State), f.wellFormed = true → Executes f s → Outside s (effectiveAddress f s) →
    ∃ t, exec (.store f) s = .next t ∧
      FaultsWith s t (.addressFault .store (effectiveAddress f s)) (s.pc + 1#32)) ∧
  (∀ f : Fields, f.wellFormed = true → encode (.store f) &&& 0xFC000000#32 = 0x08000000#32) ∧
  encode (.store ⟨15#4, 2, 0, 0, 10⟩) = 0x0BC8000A#32

/-- 41_alu section 2, LOAD and STORE (part of it the spec's derivation): the ALU returns the exact address
with its class, whatever its size, and one that completes leaves `CC` Z for address 0 and P for any other. -/
def Obligations.AddressClassIsZeroOrPositive : Prop :=
  (∀ (op : OpCode) (in1 in2 : Int), op = .load ∨ op = .store →
    ∃ fl, alu op in1 in2 = some (in1 + in2, fl) ∧ fl.bits = classBits (in1 + in2)) ∧
  (∀ (f : Fields) (s t : State) (i : Instr), i = .load f ∨ i = .store f → Executes f s →
    exec i s = .next t → s.faulted = none → t.faulted = none →
    t.cc = if effectiveAddress f s = 0 then 2#4 else 4#4)

/-- 43_load_store, last paragraph (the spec's derivation): a word stored and loaded back from the same
address is the stored register's value. -/
def Obligations.StoredWordIsLoadedBack : Prop :=
  ∀ (f g : Fields) (s t u : State), Executes f s → Executes g t → s.faulted = none → t.faulted = none →
    u.faulted = none → exec (.store f) s = .next t → exec (.load g) t = .next u →
    effectiveAddress g t = effectiveAddress f s → g.target ≠ 0 →
    u.reg g.target = if f.target = 15 then s.pc + 1#32 else s.reg f.target

/-- 20_memory section 3, instruction-fetch coherence (the spec's derivation): a word stored over the next
instruction is the one the next step fetches and runs. -/
def Obligations.StoreIsSeenByTheNextFetch : Prop :=
  ∀ (f : Fields) (s t : State) (w : Word) (i : Instr), Running s → s.mem.wf = true →
    s.mem.read? (val s.pc) = some w → decode w = .instruction (.store f) → Executes f s →
    effectiveAddress f s = val s.pc + 1 → step s = .next t → t.faulted = none →
    decode (if f.target = 15 then s.pc + 1#32 else s.reg f.target) = .instruction i →
    step t = exec i t

/-- 20_memory section 1, what reaches memory: a step changes no word but the one an executed STORE stores
to, and never the size. -/
def Obligations.OnlyStoreChangesMemory : Prop :=
  ∀ s t : State, step s = .next t →
    t.mem.size = s.mem.size ∧
    ∀ a : Int, t.mem.read? a ≠ s.mem.read? a →
      ∃ w f, s.mem.read? (val s.pc) = some w ∧ decode w = .instruction (.store f) ∧ Executes f s ∧
        a = effectiveAddress f s

/-! ### HALT -/

/-- R150; that the pc advances is the spec's decision D15. The target field is ignored, and the sources
need only be registers. A block that has halted takes no step; a HALT whose condition fails does not
halt; and a step halts the block exactly when the word it fetched is a HALT whose condition is satisfied. -/
def Obligations.HaltStopsTheRun : Prop :=
  (∀ (f : Fields) (s : State), f.src1 < 16 → f.src2 < 16 → Executes f s →
    ∃ t, exec (.halt f) s = .next t ∧ t.halted = true ∧ t.pc = s.pc + 1#32 ∧ LowRegsUnchanged s t ∧
      t.cc = s.cc ∧ t.faulted = s.faulted ∧ MemUnchanged s t ∧ ¬∃ u, step t = .next u) ∧
  (∀ (f : Fields) (s : State), ¬Executes f s → ∃ t, exec (.halt f) s = .next t ∧ t.halted = s.halted) ∧
  (∀ s t : State, step s = .next t →
    (t.halted = true ↔
      ∃ w f, s.mem.read? (val s.pc) = some w ∧ decode w = .instruction (.halt f) ∧ Executes f s)) ∧
  (∀ f : Fields, f.wellFormed = true → encode (.halt f) &&& 0xFC000000#32 = 0#32) ∧
  encode (.halt ⟨15#4, 0, 0, 0, 0⟩) = 0x03C00000#32 ∧ encode (.halt ⟨4#4, 0, 0, 0, 0⟩) = 0x01000000#32

/-- 10_state section 5, "No instruction reads it": with `halted` different, an instruction does the same to
everything else. -/
def Obligations.NoInstructionReadsHalted : Prop :=
  ∀ (i : Instr) (s : State) (b : Bool),
    ∃ t u, exec i s = .next t ∧ exec i (s.setHalted b) = .next u ∧
      u.regs = t.regs ∧ u.cc = t.cc ∧ u.mem = t.mem ∧ u.faulted = t.faulted ∧
      (t.halted ≠ s.halted → u.halted = true) ∧ (u.halted ≠ b → t.halted = true)

/-! ### registers, flag, program counter -/

/-- R22: register 0 reads 0 after any writes, a write to it is no error and changes nothing, and an
instruction whose target it is does everything else it does with another target from 1 to 14. -/
def Obligations.ZeroRegisterDiscardsWrites : Prop :=
  (∀ (s : State) (vs : List Word), (vs.foldl (fun u v => u.setReg 0 v) s).reg 0 = 0#32) ∧
  (∀ (s : State) (v : Word), s.writeReg? 0 v = some s) ∧
  (∀ (i : Instr) (s : State) (k : Nat), WritesTarget i → 1 ≤ k → k ≤ 14 →
    ∃ t u, exec (withFields i { i.fields with target := 0 }) s = .next t ∧
      exec (withFields i { i.fields with target := k }) s = .next u ∧
      LowRegsUnchanged s t ∧ t.pc = u.pc ∧ t.cc = u.cc ∧ t.mem = u.mem ∧ t.halted = u.halted ∧
      t.faulted = u.faulted)

/-- 10_state section 2 (R23, R24): a register 1 to 15 reads what was last written to it, through the
instructions' own read and write, and no other register changes. -/
def Obligations.RegistersHoldWhatIsWritten : Prop :=
  ∀ (s t : State) (r : Nat) (v : Word), r ≠ 0 → s.writeReg? r v = some t →
    t.readReg? r = some v ∧ (∀ q, q ≠ r → t.readReg? q = s.readReg? q) ∧ (r = 15 → t.pc = v)

/-- R165: an index that names no register is a fault where it is read or written, and no decoded
instruction carries one. That such instructions can be given at all is the spec's decision D29; the
places where a target is accessed are those of R100, the state left is that of R167. -/
def Obligations.RegisterIndexOutOfRangeIsFatal : Prop :=
  (∀ (w : Word) (i : Instr), decode w = .instruction i →
    i.fields.target < 16 ∧ i.fields.src1 < 16 ∧ i.fields.src2 < 16) ∧
  (∀ (i : Instr) (s : State), Executes i.fields s → 16 ≤ i.fields.src1 ∨ 16 ≤ i.fields.src2 →
    ∃ t, exec i s = .next t ∧ FaultsWith s t .registerIndexFault s.pc) ∧
  (∀ (f : Fields) (s : State) (i : Instr), Executes f s → f.src1 < 16 → f.src2 < 16 → 16 ≤ f.target →
    (i = .add f ∨ i = .sub f ∨ i = .mul f ∨ i = .div f ∨ i = .store f ∨
      (i = .load f ∧ ¬Outside s (effectiveAddress f s))) →
    ∃ t, exec i s = .next t ∧ FaultsWith s t .registerIndexFault (s.pc + 1#32))

/-- 10_state section 4 (writers of `CC`; part of it the spec's derivation): a step leaves `CC` as it was unless
it executes an ADD, SUB, MUL, DIV, LOAD or STORE without a fault, and then `CC` is a single flag; so no
step brings ALWAYS back. -/
def Obligations.FlagIsWrittenByFlagWritersOnly : Prop :=
  ∀ s t : State, step s = .next t →
    ((∃ w i, s.mem.read? (val s.pc) = some w ∧ decode w = .instruction i ∧ WritesFlag i ∧
        Executes i.fields s ∧ t.faulted = none) →
      t.cc = 1#4 ∨ t.cc = 2#4 ∨ t.cc = 4#4 ∨ t.cc = 8#4) ∧
    (¬(∃ w i, s.mem.read? (val s.pc) = some w ∧ decode w = .instruction i ∧ WritesFlag i ∧
        Executes i.fields s ∧ t.faulted = none) → t.cc = s.cc) ∧
    (s.cc ≠ 15#4 → t.cc ≠ 15#4)

/-- 10_state section 3: a step that does not fault advances the pc by exactly one, with no wrap-around in a
memory of a legal size, unless an executed instruction writes register 15 as its target. -/
def Obligations.PcAdvancesByOneUnlessWritten : Prop :=
  ∀ (s t : State) (w : Word) (i : Instr), step s = .next t → t.faulted = none → s.mem.wf = true →
    s.mem.read? (val s.pc) = some w → decode w = .instruction i →
    ¬(WritesTarget i ∧ Executes i.fields s ∧ i.fields.target = 15) →
    t.pc = s.pc + 1#32 ∧ val t.pc = val s.pc + 1

/-- 44_halt_and_control_transfer section 2 (R151): a running block whose instruction is an executed ADD, SUB,
MUL, DIV, or LOAD from inside memory with target 15 takes the step without a fault, whatever the value,
and has that value in the pc; where it is outside memory the next step raises AddressFault at the fetch,
its record naming the target. -/
def Obligations.BadJumpTargetFaultsAtTheNextFetch : Prop :=
  ∀ (s : State) (w : Word) (i : Instr), Running s → s.mem.read? (val s.pc) = some w →
    decode w = .instruction i → WritesTarget i → Executes i.fields s → i.fields.target = 15 →
    (∀ f, i = .load f → ¬Outside s (effectiveAddress f s)) →
    ∃ t, step s = .next t ∧ Running t ∧
      (∀ f, i = .load f → s.mem.read? (effectiveAddress f s) = some t.pc) ∧
      ((∀ f, i ≠ .load f) → ∃ v fl,
        alu i.op (val (s.reg i.fields.src1)) (secondOperand i.fields s) = some (v, fl) ∧ t.pc = pat v) ∧
      (Outside t (val t.pc) → ∃ u, step t = .next u ∧ FaultsWith t u (.addressFault .fetch (val t.pc)) t.pc)

/-- 44_halt_and_control_transfer section 2, the table of idioms (R156, the spec's derivation), each as the
instruction it is: load immediate and absolute jump (and the no-op that sets flags); move, test, register
jump and reading the own address; relative jump and conditional branch; compare, with a register and with
a constant; negate; indirect jump; and the no-op that keeps the flags. -/
def Obligations.IdiomsHaveTheirEffects : Prop :=
  (∀ (s : State) (k : Int) (r : Nat), s.cc ≠ 0#4 → -512 ≤ k → k ≤ 511 → r < 16 →
    ∃ t v, exec (.add ⟨15#4, r, 0, 0, k⟩) s = .next t ∧ val v = k ∧
      TargetEffect ⟨15#4, r, 0, 0, k⟩ s t v (classBits k)) ∧
  (∀ (s : State) (r a : Nat), s.cc ≠ 0#4 → r < 16 → a < 16 →
    ∃ t, exec (.add ⟨15#4, r, a, 0, 0⟩) s = .next t ∧
      TargetEffect ⟨15#4, r, a, 0, 0⟩ s t (s.reg a) (classBits (val (s.reg a)))) ∧
  (∀ (s : State) (c : BitVec 4) (d : Int), -512 ≤ d → d ≤ 511 →
    (c &&& s.cc ≠ 0#4 → Representable (val s.pc + d) →
      ∃ t v, exec (.add ⟨c, 15, 15, 0, d⟩) s = .next t ∧ val v = val s.pc + d ∧
        TargetEffect ⟨c, 15, 15, 0, d⟩ s t v (classBits (val s.pc + d))) ∧
    (c &&& s.cc = 0#4 → ∃ t, exec (.add ⟨c, 15, 15, 0, d⟩) s = .next t ∧ t.pc = s.pc + 1#32 ∧ t.cc = s.cc)) ∧
  (∀ (s : State) (a b : Nat), s.cc ≠ 0#4 → a < 16 → b < 16 →
    ∃ t, exec (.sub ⟨15#4, 0, a, b, 0⟩) s = .next t ∧ LowRegsUnchanged s t ∧
      (t.cc = 2#4 ↔ s.reg a = s.reg b) ∧
      (Representable (val (s.reg a) - val (s.reg b)) →
        (t.cc = 1#4 ↔ val (s.reg a) < val (s.reg b)) ∧ (t.cc = 4#4 ↔ val (s.reg b) < val (s.reg a))) ∧
      (¬Representable (val (s.reg a) - val (s.reg b)) → t.cc = 8#4)) ∧
  (∀ (s : State) (a : Nat) (k : Int), s.cc ≠ 0#4 → a < 16 → -512 ≤ k → k ≤ 511 →
    ∃ t, exec (.sub ⟨15#4, 0, a, 0, k⟩) s = .next t ∧ LowRegsUnchanged s t ∧
      (Representable (val (s.reg a) - k) → t.cc = classBits (val (s.reg a) - k)) ∧
      (¬Representable (val (s.reg a) - k) → t.cc = 8#4)) ∧
  (∀ (s : State) (r a : Nat), s.cc ≠ 0#4 → r < 16 → a < 16 →
    ∃ t v, exec (.sub ⟨15#4, r, 0, a, 0⟩) s = .next t ∧
      (val (s.reg a) ≠ -2147483648 →
        val v = -val (s.reg a) ∧ TargetEffect ⟨15#4, r, 0, a, 0⟩ s t v (classBits (-val (s.reg a)))) ∧
      (val (s.reg a) = -2147483648 → v = 0#32 ∧ TargetEffect ⟨15#4, r, 0, a, 0⟩ s t v 8#4)) ∧
  (∀ (s : State) (a : Nat) (k : Int), s.cc ≠ 0#4 → a < 16 → -512 ≤ k → k ≤ 511 →
    ¬Outside s (val (s.reg a) + k) →
    ∃ t, exec (.load ⟨15#4, 15, a, 0, k⟩) s = .next t ∧ s.mem.read? (val (s.reg a) + k) = some t.pc ∧
      t.cc = if val (s.reg a) + k = 0 then 2#4 else 4#4) ∧
  (∀ s : State, ∃ t, exec (.add ⟨0#4, 0, 0, 0, 0⟩) s = .next t ∧ t.pc = s.pc + 1#32 ∧ LowRegsUnchanged s t ∧
    t.cc = s.cc ∧ t.halted = s.halted ∧ t.faulted = s.faulted ∧ MemUnchanged s t)

/-! ### memory -/

/-- R53: a write fails exactly outside memory; else the word at the address is the one written, no other
word changes, and the size stays. -/
def Obligations.MemoryWriteChangesOneWord : Prop :=
  ∀ (m : Memory) (a : Int) (v : Word),
    (a < 0 ∨ (m.size : Int) ≤ a → m.write? a v = none) ∧
    (¬(a < 0 ∨ (m.size : Int) ≤ a) →
      ∃ m', m.write? a v = some m' ∧ m'.size = m.size ∧ m'.read? a = some v ∧
        ∀ b : Int, b ≠ a → m'.read? b = m.read? b)

/-- The model's memory form (log 1, log 3), over 20_memory section 1: two well-formed memories of one size that
read alike everywhere are the same data. -/
def Obligations.EqualMemoriesAreEqualData : Prop :=
  ∀ m n : Memory, m.wf = true → n.wf = true → m.size = n.size → (∀ a : Int, m.read? a = n.read? a) → m = n

/-! ### faults -/

/-- R162: the three places an AddressFault is raised, with its tag, address and record, and no other. -/
def Obligations.AddressFaultHasThreeSources : Prop :=
  ∀ (s t : State) (acc : Access) (a : Int) (w : Option Word), step s = .next t →
    (t.faulted = some { kind := .addressFault acc a, pc := s.pc, word := w } ↔
      (acc = .fetch ∧ a = val s.pc ∧ Outside s a ∧ w = none) ∨
      (∃ v f, s.mem.read? (val s.pc) = some v ∧ w = some v ∧ Executes f s ∧ a = effectiveAddress f s ∧
        Outside s a ∧
        ((acc = .load ∧ decode v = .instruction (.load f)) ∨
          (acc = .store ∧ decode v = .instruction (.store f)))))

/-- 60_exceptions section 1, the table of the state at a fault, for the three rows a step can reach: the pc is
unchanged for a fetch or decode fault, which emit no event, and one further for a load or store fault,
which does; nothing else has changed and the record carries the pc at the fetch and the word. -/
def Obligations.FaultLeavesTheTabulatedState : Prop :=
  ∀ (s t : State) (r : FaultRecord), step s = .next t → t.faulted = some r →
    (((∃ a, r.kind = .addressFault .fetch a) ∨ r.kind = .decodeFault) ∧ FaultsWith s t r.kind s.pc ∧
      stepEvent s = none) ∨
    (((∃ a, r.kind = .addressFault .load a) ∨ (∃ a, r.kind = .addressFault .store a)) ∧
      FaultsWith s t r.kind (s.pc + 1#32) ∧ (stepEvent s).isSome = true)

/-- 10_state section 5 and 60_exceptions section 4: a faulted block takes no step and gives the host's `run` no
transition (the spec's decision D26); a step never clears a record; reset does, keeping memory. That `step`
answers the fault `faulted` with the record is the model's choice (log 5), and that `run` is refused under
the name `runOnFaultedBlock` is the model's choice (log 8). -/
def Obligations.FaultIsFinal : Prop :=
  (∀ (s : State) (r : FaultRecord), s.faulted = some r →
    step s = .fault (.faulted r) ∧ (∀ a, runEntry a s = .refused .runOnFaultedBlock) ∧
    (∀ k, runLoop k s = s) ∧ (resetBlock s).faulted = none ∧ (resetBlock s).mem = s.mem) ∧
  (∀ s t : State, step s = .next t → s.faulted = none)

/-! ### the whole block -/

/-- 40_step_cycle section 3 (R104, D16): the block takes a step exactly while it is neither halted nor
faulted, so no state and no word stops it otherwise; and `Step` itself does not look at `halted`. -/
def Obligations.BlockStepsExactlyWhileRunning : Prop :=
  (∀ s : State, (∃ t, step s = .next t) ↔ Running s) ∧
  (∀ (s : State) (b : Bool), ∃ t u, cycle s = .next t ∧ cycle (s.setHalted b) = .next u ∧ u.regs = t.regs ∧
    u.cc = t.cc ∧ u.mem = t.mem ∧ u.faulted = t.faulted)

/-- Every step keeps the invariant of the block: memory canonical (the model's form, log 1) and of a legal
size, `CC` one of its five values, never both halted and faulted, and a fault record that is true of the
state it stands in, as `recordOk` says. -/
def Obligations.StepKeepsTheInvariant : Prop :=
  ∀ s t : State, inv s = true → step s = .next t → inv t = true

/-- The invariant holds after reset over every well-formed memory, and so in `State.reset` (log 1, log 2, log 3). -/
def Obligations.ResetMeetsTheInvariant : Prop :=
  (∀ m : Memory, m.wf = true → inv (State.resetWith m) = true) ∧ inv State.reset = true

/-- R38: the state after reset, for every memory. -/
def Obligations.ResetLeavesTheTabulatedState : Prop :=
  ∀ m : Memory,
    (∀ r, r < 16 → (State.resetWith m).readReg? r = some 0#32) ∧ (State.resetWith m).pc = 0#32 ∧ (State.resetWith m).cc = 15#4 ∧
    (State.resetWith m).halted = false ∧ (State.resetWith m).faulted = none ∧ (State.resetWith m).mem = m ∧
    (∀ a : Word, ∃ t, runEntry a (State.resetWith m) = .next t ∧ t.pc = a)

/-- 70_reset_and_hazards section 2: the entry of `run` clears `halted` and loads the pc and nothing else; the
loop is the run loop; a start outside memory faults at the first fetch; without an argument the start is 0.
On a block whose run is in progress or cancelled, where the spec gives the host no `run`, this effect is the
model's choice (log 23). -/
def Obligations.RunEntrySetsOnlyPcAndHalted : Prop :=
  ∀ (s : State) (a : Word), s.faulted = none →
    ∃ t, runEntry a s = .next t ∧ t.halted = false ∧ t.pc = a ∧ LowRegsUnchanged s t ∧ t.cc = s.cc ∧
      t.faulted = none ∧ MemUnchanged s t ∧ (∀ k, run k s a = .next (runLoop k t)) ∧
      (∀ k, run k s = run k s 0#32) ∧
      (Outside s (val a) → ∃ u, step t = .next u ∧ FaultsWith t u (.addressFault .fetch (val a)) a)

/-- 40_step_cycle section 3: the loop takes steps until the block halts or faults; while it is running after
`k` the `k` steps were all taken, and once it has stopped a longer bound changes nothing. -/
def Obligations.RunLoopStopsOnlyHaltedOrFaulted : Prop :=
  (∀ (k : Nat) (s : State), Running (runLoop k s) → Host.Core.run Sys2Proof.core k s = .next (runLoop k s)) ∧
  (∀ (k n : Nat) (s : State), ¬Running (runLoop k s) → runLoop (k + n) s = runLoop k s) ∧
  (∀ (k : Nat) (s t : State), Host.Core.run Sys2Proof.core k s = .next t → runLoop k s = t)

/-- The host's placing of a word (log 17): in any memory of a legal size the next step runs the instruction
placed, whatever the state was. -/
def Obligations.PlacedWordRunsNext : Prop :=
  ∀ (s : State) (w : Word) (i : Instr), 1 ≤ s.mem.size → decode w = .instruction i →
    step (s.withFetchWord 32 w.toNat) = exec i (s.withFetchWord 32 w.toNat)
end

