-- ==== Sys2Proof/Laws/Alu.lean ====
section
/-! SUPPORT. The ALU's answers, and register values as the integers they stand for. -/

namespace Sys2Proof.Machine

/-- The range test as two inequalities (R115). -/
theorem fits_iff (e : Int) : fits e = true ↔ -2147483648 ≤ e ∧ e ≤ 2147483647 := by
  simp only [fits, Bool.and_eq_true, decide_eq_true_eq]
  rfl

/-- A result in range is returned with its class (R113). -/
theorem rangeTested_of_fits {e : Int} (h : fits e = true) : rangeTested e = (e, classOf e) := if_pos h

/-- A result out of range is replaced by 0 with V (R115). -/
theorem rangeTested_of_not_fits {e : Int} (h : fits e = false) : rangeTested e = (0, .v) := by
  simp [rangeTested, h]

/-- The value of every pattern is a register value (R21). -/
theorem val_range (w : Word) : -2147483648 ≤ val w ∧ val w ≤ 2147483647 := by
  have h1 := BitVec.le_toInt w
  have h2 := BitVec.toInt_lt (x := w)
  unfold val
  constructor <;> simpa using by omega

/-- `val (pat e) = e` for a register value (R7). -/
theorem val_pat {e : Int} (h1 : -2147483648 ≤ e) (h2 : e ≤ 2147483647) : val (pat e) = e := by
  unfold val pat
  rw [BitVec.toInt_ofInt]
  rw [Int.bmod_def]
  norm_num
  omega

/-- `pat (val w) = w` (R7). -/
theorem pat_val (w : Word) : pat (val w) = w := BitVec.ofInt_toInt

/-- A class is never V (R113). -/
theorem classOf_ne_v (e : Int) : classOf e ≠ .v := by
  unfold classOf
  split
  · decide
  · split <;> decide

/-- The ALU answers for each of the seven operations and rejects any other (R117). -/
theorem alu_eq_none {op : OpCode} {a b : Int} : alu op a b = none ↔ ∃ n, op = .other n := by
  cases op <;> simp [alu]

/-- Division rounding down is the floor of the rational quotient (R7, R112). -/
theorem fdiv_eq_floor_of_pos (a : Int) {b : Int} (hb : 0 < b) : a.fdiv b = ⌊(a : ℚ) / (b : ℚ)⌋ := by
  lift b to Nat using hb.le
  rw [Int.fdiv_eq_ediv_of_nonneg a (Int.natCast_nonneg b), Int.cast_natCast, Rat.floor_intCast_div_natCast]

/-- The same for a divisor of either sign. -/
theorem fdiv_eq_floor (a : Int) {b : Int} (hb : b ≠ 0) : a.fdiv b = ⌊(a : ℚ) / (b : ℚ)⌋ := by
  rcases lt_or_gt_of_ne hb with h | h
  · rw [← Int.neg_fdiv_neg, fdiv_eq_floor_of_pos (-a) (by omega), Int.cast_neg, Int.cast_neg, neg_div_neg_eq]
  · exact fdiv_eq_floor_of_pos a h

end Sys2Proof.Machine
end

