-- ==== Sys2Proof/Laws/Decode.lean ====
section
/-! SUPPORT. The fields of a word as divisions of its number, and the number an encoding is. -/

namespace Sys2Proof

/-- The five ranges of R70, one by one. -/
theorem Fields.wellFormed_iff (f : Fields) :
    f.wellFormed = true ↔ f.target < 16 ∧ f.src1 < 16 ∧ f.src2 < 16 ∧ -512 ≤ f.offset ∧ f.offset ≤ 511 := by
  simp only [Fields.wellFormed, Bool.and_eq_true, decide_eq_true_eq, and_assoc]
  rfl

/-- A slice as a quotient and a remainder (R7). -/
theorem slice_eq (w : Word) (hi lo : Nat) : slice w hi lo = w.toNat / 2 ^ lo % 2 ^ (hi - lo + 1) := by
  rw [slice, Nat.shiftRight_eq_div_pow]

/-- The operation number of each operation is one `opOfNumber` reads back (R74). -/
theorem opOfNumber_number (i : Instr) : opOfNumber i.op.number = i.op := by
  cases i <;> rfl

/-- Every operation number fits its five bits (R72, R74). -/
theorem number_lt (i : Instr) : i.op.number < 32 := by
  cases i <;> simp [Instr.op, OpCode.number]

/-- For fields in range, the disjoint `or`s of R77 are a sum. -/
theorem encodeNat_eq_sum {n : Nat} {f : Fields} (hf : f.wellFormed = true) :
    encodeNat n f = n * 67108864 + f.cond.toNat * 4194304 + f.target * 262144 + f.src1 * 16384 + f.src2 * 1024 +
      (f.offset % 1024).toNat := by
  obtain ⟨ht, h1, h2, _, _⟩ := (Fields.wellFormed_iff f).mp hf
  have hc : f.cond.toNat < 16 := f.cond.isLt
  have ho : (f.offset % 1024).toNat < 1024 := by omega
  have or_add : ∀ (k a b : Nat), b < 2 ^ k → a <<< k ||| b = a * 2 ^ k + b := fun k a b hb => by
    rw [← Nat.shiftLeft_add_eq_or_of_lt hb, Nat.shiftLeft_eq]
  unfold encodeNat
  rw [Nat.or_assoc, Nat.or_assoc, Nat.or_assoc, Nat.or_assoc, or_add 10 f.src2 _ ho,
    or_add 14 f.src1 _ (by omega), or_add 18 f.target _ (by omega), or_add 22 f.cond.toNat _ (by omega),
    or_add 26 n _ (by omega)]
  omega

/-- The number of a well-formed instruction's word. -/
theorem encode_toNat {i : Instr} (hi : i.wellFormed = true) :
    (encode i).toNat = i.op.number * 67108864 + i.fields.cond.toNat * 4194304 + i.fields.target * 262144 +
      i.fields.src1 * 16384 + i.fields.src2 * 1024 + (i.fields.offset % 1024).toNat := by
  have hn := number_lt i
  obtain ⟨ht, h1, h2, _, _⟩ := (Fields.wellFormed_iff i.fields).mp hi
  have hc : i.fields.cond.toNat < 16 := i.fields.cond.isLt
  have ho : (i.fields.offset % 1024).toNat < 1024 := by omega
  rw [encode, encodeNat_eq_sum hi, BitVec.toNat_ofNat, Nat.mod_eq_of_lt (by omega)]

/-- The mask 0xFC000000 of R74 keeps the six top bits of a word. -/
theorem mask_eq_shifts (w : Word) : w &&& 0xFC000000#32 = w >>> 26 <<< 26 := by
  ext k hk
  simp only [BitVec.getElem_and, BitVec.getElem_shiftLeft, BitVec.getElem_ushiftRight]
  interval_cases k <;> simp [BitVec.getElem_eq_testBit_toNat, BitVec.getLsbD] <;> (intro _; decide)

/-- The masked word of a well-formed instruction is its operation number in place (R74). -/
theorem encode_masked {i : Instr} {n : Nat} (hi : i.wellFormed = true) (hn : i.op.number = n) :
    encode i &&& 0xFC000000#32 = BitVec.ofNat 32 (n * 67108864) := by
  have hlt := number_lt i
  obtain ⟨ht, h1, h2, _, _⟩ := (Fields.wellFormed_iff i.fields).mp hi
  have hc : i.fields.cond.toNat < 16 := i.fields.cond.isLt
  rw [mask_eq_shifts]
  apply BitVec.eq_of_toNat_eq
  simp only [BitVec.toNat_shiftLeft, BitVec.toNat_ushiftRight, BitVec.toNat_ofNat, Nat.shiftLeft_eq,
    Nat.shiftRight_eq_div_pow, encode_toNat hi, hn]
  rw [hn] at hlt
  omega

/-- Sign extension of a stored offset gives it back (R73). -/
theorem sext10_emod {o : Int} (h1 : -512 ≤ o) (h2 : o ≤ 511) : sext10 (o % 1024).toNat = o := by
  unfold sext10
  split <;> omega

/-- An illegal word is one `Decode` rejects. -/
theorem illegal_eq_true {w : Word} : illegal w = true ↔ ∃ e, decode w = .rejected e := by
  unfold illegal
  cases decode w <;> simp

/-- A number is one of the seven operations' or none (R74). -/
theorem opOfNumber_cases (n : Nat) :
    opOfNumber n = .other n ∨ n = 0 ∨ n = 1 ∨ n = 2 ∨ n = 3 ∨ n = 5 ∨ n = 6 ∨ n = 7 := by
  unfold opOfNumber
  split <;> simp_all

/-- What a word that decodes is: bit 31 zero, the operation its number's, the fields its slices. -/
theorem decode_inv {w : Word} {i : Instr} (h : decode w = .instruction i) :
    slice w 31 31 = 0 ∧ i.op.number = slice w 30 26 ∧ i.fields = fieldsOf w := by
  unfold decode at h
  split at h
  · cases h
  · rename_i h0
    refine ⟨by simpa using h0, ?_⟩
    have hw := opOfNumber_cases (slice w 30 26)
    generalize slice w 30 26 = n at *
    rcases hw with hw | rfl | rfl | rfl | rfl | rfl | rfl | rfl
    · rw [hw] at h
      cases h
    all_goals
      simp only [opOfNumber] at h
      injection h with h
      subst h
      exact ⟨rfl, rfl⟩

/-- The fields of any word are in the ranges of R70. -/
theorem fieldsOf_wellFormed (w : Word) : (fieldsOf w).wellFormed = true := by
  rw [Fields.wellFormed_iff]
  simp only [fieldsOf, slice_eq, sext10]
  refine ⟨by omega, by omega, by omega, ?_, ?_⟩ <;> split <;> omega

end Sys2Proof
end

