-- ==== Sys2Proof/Laws/Memory.lean ====
section
/-! SUPPORT. The memory operations: reads after writes, the bounds, and the canonical form. -/

namespace Sys2Proof.Machine

/-! ### cells -/

/-- A removed address is unlisted. -/
theorem lookupCell_removeCell_same (cs : List (Nat × Word)) (a : Nat) :
    lookupCell (removeCell cs a) a = Config.unlistedWord := by
  induction cs with
  | nil => rfl
  | cons c cs ih =>
    by_cases h : c.1 = a
    · simp [removeCell, h, ih]
    · simp [removeCell, lookupCell, h, ih]

/-- Removing an address leaves every other one alone. -/
theorem lookupCell_removeCell_of_ne (cs : List (Nat × Word)) {a b : Nat} (h : b ≠ a) :
    lookupCell (removeCell cs a) b = lookupCell cs b := by
  induction cs with
  | nil => rfl
  | cons c cs ih =>
    by_cases hc : c.1 = a
    · have hb : ¬a = b := fun e => h e.symm
      simp [removeCell, lookupCell, hc, ih, hb]
    · simp [removeCell, lookupCell, hc, ih]

/-- The first cell of an address is found behind inserted ones of others. -/
theorem lookupCell_insertCell_of_ne (cs : List (Nat × Word)) {a b : Nat} (w : Word) (h : b ≠ a) :
    lookupCell (insertCell cs a w) b = lookupCell cs b := by
  have hb : ¬a = b := fun e => h e.symm
  induction cs with
  | nil => simp [insertCell, lookupCell, hb]
  | cons c cs ih =>
    by_cases hc : a < c.1
    · simp [insertCell, lookupCell, hc, hb]
    · simp [insertCell, lookupCell, hc, ih]

/-- A cell inserted where its address was unlisted is the one found. -/
theorem lookupCell_insertCell_removeCell (cs : List (Nat × Word)) (a : Nat) (w : Word) :
    lookupCell (insertCell (removeCell cs a) a w) a = w := by
  induction cs with
  | nil => simp [insertCell, removeCell, lookupCell]
  | cons c cs ih =>
    by_cases hc : c.1 = a
    · simp [removeCell, hc, ih]
    · by_cases hl : a < c.1
      · simp [removeCell, insertCell, lookupCell, hc, hl]
      · simp [removeCell, insertCell, lookupCell, hc, hl, ih]

/-- The written word is read back. -/
theorem lookupCell_updateCell_same (cs : List (Nat × Word)) (a : Nat) (w : Word) :
    lookupCell (updateCell cs a w) a = w := by
  unfold updateCell
  split
  · rename_i h
    rw [lookupCell_removeCell_same, h]
  · exact lookupCell_insertCell_removeCell cs a w

/-- Every other word reads as before. -/
theorem lookupCell_updateCell_of_ne (cs : List (Nat × Word)) {a b : Nat} (w : Word) (h : b ≠ a) :
    lookupCell (updateCell cs a w) b = lookupCell cs b := by
  unfold updateCell
  split
  · exact lookupCell_removeCell_of_ne cs h
  · rw [lookupCell_insertCell_of_ne _ w h, lookupCell_removeCell_of_ne cs h]

/-! ### reads and writes -/

/-- The bounds contract as two inequalities. -/
theorem Memory.inRange_iff (m : Memory) (a : Int) : m.inRange a = true ↔ 0 ≤ a ∧ a < m.size := by
  simp [Memory.inRange]

/-- A read inside memory. -/
theorem Memory.read?_of_inRange {m : Memory} {a : Int} (h : m.inRange a = true) :
    m.read? a = some (lookupCell m.cells a.toNat) := if_pos h

/-- A read fails exactly outside memory (R52). -/
theorem Memory.read?_eq_none {m : Memory} {a : Int} : m.read? a = none ↔ m.inRange a = false := by
  unfold Memory.read?
  split <;> simp_all

/-- A write inside memory. -/
theorem Memory.write?_of_inRange {m : Memory} {a : Int} (w : Word) (h : m.inRange a = true) :
    m.write? a w = some { m with cells := updateCell m.cells a.toNat w } := if_pos h

/-- A write fails exactly outside memory (R53). -/
theorem Memory.write?_eq_none {m : Memory} {a : Int} {w : Word} :
    m.write? a w = none ↔ m.inRange a = false := by
  unfold Memory.write?
  split <;> simp_all

/-- A write answers only inside memory, with these cells. -/
theorem Memory.write?_eq_some {m m' : Memory} {a : Int} {w : Word} (h : m.write? a w = some m') :
    m.inRange a = true ∧ m' = { m with cells := updateCell m.cells a.toNat w } := by
  unfold Memory.write? at h
  split at h
  · rename_i hr
    exact ⟨hr, (Option.some.inj h).symm⟩
  · cases h

/-- A write keeps the size. -/
theorem Memory.write?_size {m m' : Memory} {a : Int} {w : Word} (h : m.write? a w = some m') :
    m'.size = m.size := by
  rw [(Memory.write?_eq_some h).2]

/-! ### the canonical form -/

/-- A form good from `lo` on is good from any lower address on. -/
theorem cellsWf_mono {size lo lo' : Nat} {cs : List (Nat × Word)} (hle : lo' ≤ lo)
    (h : cellsWf size lo cs = true) : cellsWf size lo' cs = true := by
  cases cs with
  | nil => rfl
  | cons c cs =>
    simp only [cellsWf, Bool.and_eq_true, decide_eq_true_eq] at h ⊢
    exact ⟨⟨⟨by omega, h.1.1.2⟩, h.1.2⟩, h.2⟩

/-- Removing an address keeps the canonical form. -/
theorem cellsWf_removeCell {size : Nat} (a : Nat) (cs : List (Nat × Word)) :
    ∀ lo, cellsWf size lo cs = true → cellsWf size lo (removeCell cs a) = true := by
  induction cs with
  | nil => exact fun _ h => h
  | cons c cs ih =>
    intro lo h
    simp only [cellsWf, Bool.and_eq_true, decide_eq_true_eq] at h
    by_cases hc : c.1 = a
    · simp only [removeCell, hc, if_true]
      exact ih lo (cellsWf_mono (by omega) h.2)
    · simp only [removeCell, hc, if_false, cellsWf, Bool.and_eq_true, decide_eq_true_eq]
      exact ⟨h.1, ih _ h.2⟩

/-- Inserting an unlisted address with a listable word keeps the canonical form. -/
theorem cellsWf_insertCell {size a : Nat} {w : Word} (ha : a < size) (hw : w ≠ Config.unlistedWord)
    (cs : List (Nat × Word)) :
    ∀ lo, lo ≤ a → (∀ c ∈ cs, c.1 ≠ a) → cellsWf size lo cs = true →
      cellsWf size lo (insertCell cs a w) = true := by
  induction cs with
  | nil =>
    intro lo hlo _ _
    simp [insertCell, cellsWf, hlo, ha, hw]
  | cons c cs ih =>
    intro lo hlo hne h
    simp only [cellsWf, Bool.and_eq_true, decide_eq_true_eq] at h
    have hca : c.1 ≠ a := hne c (by simp)
    by_cases hl : a < c.1
    · simp only [insertCell, hl, if_true, cellsWf, Bool.and_eq_true, decide_eq_true_eq]
      exact ⟨⟨⟨hlo, ha⟩, hw⟩, ⟨⟨by omega, h.1.1.2⟩, h.1.2⟩, h.2⟩
    · simp only [insertCell, hl, if_false, cellsWf, Bool.and_eq_true, decide_eq_true_eq]
      exact ⟨h.1, ih (c.1 + 1) (by omega) (fun d hd => hne d (by simp [hd])) h.2⟩

/-- No cell of a removed address is left. -/
theorem removeCell_no_cell (cs : List (Nat × Word)) (a : Nat) : ∀ c ∈ removeCell cs a, c.1 ≠ a := by
  induction cs with
  | nil => simp [removeCell]
  | cons c cs ih =>
    by_cases hc : c.1 = a
    · simpa [removeCell, hc] using ih
    · intro d hd
      simp only [removeCell, hc, if_false, List.mem_cons] at hd
      rcases hd with rfl | hd
      · exact hc
      · exact ih d hd

/-- The canonical form is kept by a write of cells inside memory. -/
theorem cellsWf_updateCell {size a : Nat} (w : Word) (cs : List (Nat × Word)) (ha : a < size)
    (h : cellsWf size 0 cs = true) : cellsWf size 0 (updateCell cs a w) = true := by
  unfold updateCell
  split
  · exact cellsWf_removeCell a cs 0 h
  · rename_i hw
    exact cellsWf_insertCell ha hw _ 0 (Nat.zero_le a) (removeCell_no_cell cs a)
      (cellsWf_removeCell a cs 0 h)

/-- Every write keeps memory well-formed: the one operation that changes memory. -/
theorem Memory.wf_write? {m m' : Memory} {a : Int} {w : Word} (hm : m.wf = true)
    (h : m.write? a w = some m') : m'.wf = true := by
  obtain ⟨hr, rfl⟩ := Memory.write?_eq_some h
  rw [Memory.inRange_iff] at hr
  simp only [Memory.wf, Bool.and_eq_true, decide_eq_true_eq] at hm ⊢
  exact ⟨hm.1, cellsWf_updateCell w m.cells (by omega) hm.2⟩

/-- The memory of the reset state is well-formed. -/
theorem Memory.initial_wf : Memory.initial.wf = true := by decide

/-- In canonical form an address below the first cell is unlisted. -/
theorem lookupCell_below {size : Nat} (cs : List (Nat × Word)) :
    ∀ {lo a : Nat}, a < lo → cellsWf size lo cs = true → lookupCell cs a = Config.unlistedWord := by
  induction cs with
  | nil => exact fun _ _ => rfl
  | cons c cs ih =>
    intro lo a ha h
    simp only [cellsWf, Bool.and_eq_true, decide_eq_true_eq] at h
    have hne : c.1 ≠ a := by omega
    simp only [lookupCell, hne, if_false]
    exact ih (lo := c.1 + 1) (by omega) h.2

end Sys2Proof.Machine
end

