-- ==== Sys2Proof/Laws/PerInstr.lean ====
section
/-! SUPPORT. Statements made once per instruction: the six top bits of each encoding. -/

namespace Sys2Proof.Laws.TopBits

/-- The reserved bit and the operation field of an instruction's word are its number (R72, R74). -/
def Statement (i : Instr) : Prop :=
  i.wellFormed = true → slice (encode i) 31 31 = 0 ∧ slice (encode i) 30 26 = i.op.number

/-- The statement holds of every instruction. -/
theorem statement_of (i : Instr) : Statement i := by
  intro hi
  have hn := number_lt i
  obtain ⟨ht, h1, h2, _, _⟩ := (Fields.wellFormed_iff i.fields).mp hi
  have hc : i.fields.cond.toNat < 16 := i.fields.cond.isLt
  have ho : (i.fields.offset % 1024).toNat < 1024 := by omega
  rw [slice_eq, slice_eq, encode_toNat hi]
  omega

theorem halt (f : Fields) : Statement (.halt f) := statement_of _
theorem load (f : Fields) : Statement (.load f) := statement_of _
theorem store (f : Fields) : Statement (.store f) := statement_of _
theorem add (f : Fields) : Statement (.add f) := statement_of _
theorem sub (f : Fields) : Statement (.sub f) := statement_of _
theorem mul (f : Fields) : Statement (.mul f) := statement_of _
theorem div (f : Fields) : Statement (.div f) := statement_of _

end Sys2Proof.Laws.TopBits
end

