-- ==== Sys2Proof/Laws/State.lean ====
section
/-! SUPPORT. What each named update of the state does to each field, and what it does to the registers. -/

namespace Sys2Proof.Machine

variable (s : State) (i j : Nat) (w : Word) (c : BitVec 4) (m : Memory) (b : Bool) (r : Option FaultRecord)

/-! ### fields -/

@[simp] theorem State.setReg_cc : (s.setReg i w).cc = s.cc := rfl
@[simp] theorem State.setReg_halted : (s.setReg i w).halted = s.halted := rfl
@[simp] theorem State.setReg_faulted : (s.setReg i w).faulted = s.faulted := rfl
@[simp] theorem State.setReg_mem : (s.setReg i w).mem = s.mem := rfl

@[simp] theorem State.setPc_cc : (s.setPc w).cc = s.cc := rfl
@[simp] theorem State.setPc_halted : (s.setPc w).halted = s.halted := rfl
@[simp] theorem State.setPc_faulted : (s.setPc w).faulted = s.faulted := rfl
@[simp] theorem State.setPc_mem : (s.setPc w).mem = s.mem := rfl

@[simp] theorem State.advancePc_cc : s.advancePc.cc = s.cc := rfl
@[simp] theorem State.advancePc_halted : s.advancePc.halted = s.halted := rfl
@[simp] theorem State.advancePc_faulted : s.advancePc.faulted = s.faulted := rfl
@[simp] theorem State.advancePc_mem : s.advancePc.mem = s.mem := rfl

@[simp] theorem State.setCc_regs : (s.setCc c).regs = s.regs := rfl
@[simp] theorem State.setCc_cc : (s.setCc c).cc = c := rfl
@[simp] theorem State.setCc_halted : (s.setCc c).halted = s.halted := rfl
@[simp] theorem State.setCc_faulted : (s.setCc c).faulted = s.faulted := rfl
@[simp] theorem State.setCc_mem : (s.setCc c).mem = s.mem := rfl
@[simp] theorem State.setCc_reg : (s.setCc c).reg i = s.reg i := rfl
@[simp] theorem State.setCc_pc : (s.setCc c).pc = s.pc := rfl

@[simp] theorem State.setMem_regs : (s.setMem m).regs = s.regs := rfl
@[simp] theorem State.setMem_cc : (s.setMem m).cc = s.cc := rfl
@[simp] theorem State.setMem_halted : (s.setMem m).halted = s.halted := rfl
@[simp] theorem State.setMem_faulted : (s.setMem m).faulted = s.faulted := rfl
@[simp] theorem State.setMem_mem : (s.setMem m).mem = m := rfl
@[simp] theorem State.setMem_reg : (s.setMem m).reg i = s.reg i := rfl
@[simp] theorem State.setMem_pc : (s.setMem m).pc = s.pc := rfl

@[simp] theorem State.setHalted_regs : (s.setHalted b).regs = s.regs := rfl
@[simp] theorem State.setHalted_cc : (s.setHalted b).cc = s.cc := rfl
@[simp] theorem State.setHalted_halted : (s.setHalted b).halted = b := rfl
@[simp] theorem State.setHalted_faulted : (s.setHalted b).faulted = s.faulted := rfl
@[simp] theorem State.setHalted_mem : (s.setHalted b).mem = s.mem := rfl
@[simp] theorem State.setHalted_reg : (s.setHalted b).reg i = s.reg i := rfl
@[simp] theorem State.setHalted_pc : (s.setHalted b).pc = s.pc := rfl

@[simp] theorem State.setFaulted_regs : (s.setFaulted r).regs = s.regs := rfl
@[simp] theorem State.setFaulted_cc : (s.setFaulted r).cc = s.cc := rfl
@[simp] theorem State.setFaulted_halted : (s.setFaulted r).halted = s.halted := rfl
@[simp] theorem State.setFaulted_faulted : (s.setFaulted r).faulted = r := rfl
@[simp] theorem State.setFaulted_mem : (s.setFaulted r).mem = s.mem := rfl
@[simp] theorem State.setFaulted_reg : (s.setFaulted r).reg i = s.reg i := rfl
@[simp] theorem State.setFaulted_pc : (s.setFaulted r).pc = s.pc := rfl

variable (pre : State) (k : FaultKind)

@[simp] theorem State.raise_regs : (pre.raise k s).regs = s.regs := rfl
@[simp] theorem State.raise_cc : (pre.raise k s).cc = s.cc := rfl
@[simp] theorem State.raise_halted : (pre.raise k s).halted = s.halted := rfl
@[simp] theorem State.raise_faulted :
    (pre.raise k s).faulted = some { kind := k, pc := pre.pc, word := pre.fetch? } := rfl
@[simp] theorem State.raise_mem : (pre.raise k s).mem = s.mem := rfl
@[simp] theorem State.raise_reg : (pre.raise k s).reg i = s.reg i := rfl
@[simp] theorem State.raise_pc : (pre.raise k s).pc = s.pc := rfl

/-! ### registers -/

/-- The pc is register 15 (R24). -/
theorem State.pc_eq_reg : s.pc = s.reg 15 := rfl

/-- Register 0 reads zero in every state (R22). -/
theorem State.reg_zero : s.reg 0 = 0#32 := rfl

/-- A write to register 0 changes nothing (R22). -/
theorem State.setReg_zero : s.setReg 0 w = s := rfl

/-- A write to another register leaves a register alone. -/
theorem State.reg_setReg_of_ne (h : j ≠ i) : (s.setReg i w).reg j = s.reg j := by
  unfold State.reg State.setReg writeSlot
  split
  · rfl
  · split
    · rfl
    · rw [Vector.getElem?_setIfInBounds_ne]
      omega

/-- A register 1 to 15 reads what was written to it (R23). -/
theorem State.reg_setReg_same (h0 : i ≠ 0) (h : i < 16) : (s.setReg i w).reg i = w := by
  unfold State.reg State.setReg writeSlot
  rw [if_neg h0, if_neg h0, Vector.getElem?_setIfInBounds_self_of_lt (by omega)]
  rfl

/-- Every register after a write, in one equation. -/
theorem State.reg_setReg (h : i < 16) :
    (s.setReg i w).reg j = if j = i ∧ i ≠ 0 then w else s.reg j := by
  by_cases hj : j = i
  · subst hj
    by_cases h0 : j = 0
    · subst h0
      rfl
    · rw [if_pos ⟨rfl, h0⟩, State.reg_setReg_same _ _ _ h0 h]
  · rw [if_neg (fun hc => hj hc.1), State.reg_setReg_of_ne _ _ _ _ hj]

/-- The pc after a write to it. -/
@[simp] theorem State.setPc_pc : (s.setPc w).pc = w :=
  State.reg_setReg_same s 15 w (by decide) (by decide)

/-- A write to the pc leaves the other registers alone. -/
theorem State.setPc_reg_of_ne (h : j ≠ 15) : (s.setPc w).reg j = s.reg j :=
  State.reg_setReg_of_ne s 15 j w h

/-- The pc after the advance (R95, R99). -/
@[simp] theorem State.advancePc_pc : s.advancePc.pc = s.pc + 1#32 := State.setPc_pc _ _

/-- The advance leaves registers 0 to 14 alone. -/
theorem State.advancePc_reg_of_ne (h : j ≠ 15) : s.advancePc.reg j = s.reg j :=
  State.setPc_reg_of_ne s j _ h

/-- An instruction's register read of an index 0 to 15. -/
theorem State.readReg?_of_lt (h : i < 16) : s.readReg? i = some (s.reg i) := if_pos h

/-- An instruction's register read of an index above 15 (R165). -/
theorem State.readReg?_of_ge (h : 16 ≤ i) : s.readReg? i = none := if_neg (Nat.not_lt.mpr h)

/-- An instruction's register write of an index 0 to 15. -/
theorem State.writeReg?_of_lt (h : i < 16) : s.writeReg? i w = some (s.setReg i w) := if_pos h

/-- An instruction's register write of an index above 15 (R165). -/
theorem State.writeReg?_of_ge (h : 16 ≤ i) : s.writeReg? i w = none := if_neg (Nat.not_lt.mpr h)

/-- Two states with the same registers, flag, markers and memory are the same state. -/
theorem State.ext_reg {s t : State} (hr : ∀ i, i < 16 → s.reg i = t.reg i) (hc : s.cc = t.cc)
    (hh : s.halted = t.halted) (hf : s.faulted = t.faulted) (hm : s.mem = t.mem) : s = t := by
  have hregs : s.regs = t.regs := by
    apply Vector.ext
    intro i hi
    have h := hr (i + 1) (by omega)
    simpa [State.reg, hi] using h
  cases s
  cases t
  simp_all

end Sys2Proof.Machine
end

