-- ==== Sys2Proof/Laws/Perform.lean ====
section
/-! SUPPORT. What the shared parts of an instruction can do, each said once: the condition test, the source
reads, the execute stage, and the four actions. -/

namespace Sys2Proof.Machine

/-! ### the condition test and the operands -/

/-- The test as the spec writes it (R94). -/
theorem conditionMet_iff (c cc : BitVec 4) : conditionMet c cc = true ↔ c &&& cc ≠ 0#4 := by
  simp [conditionMet]

/-- The test failed, as the spec writes it (R95). -/
theorem conditionMet_eq_false (c cc : BitVec 4) : conditionMet c cc = false ↔ c &&& cc = 0#4 := by
  simp [conditionMet]

/-- The operands where both indices name registers (R96, R97). -/
theorem sourceOperands_of_lt {f : Fields} (s : State) (h1 : f.src1 < 16) (h2 : f.src2 < 16) :
    sourceOperands f s = some (val (s.reg f.src1), val (s.reg f.src2) + f.offset) := by
  simp only [sourceOperands, State.readReg?_of_lt _ _ h1, State.readReg?_of_lt _ _ h2]

/-- No operands where an index names no register (R165). -/
theorem sourceOperands_of_ge {f : Fields} (s : State) (h : 16 ≤ f.src1 ∨ 16 ≤ f.src2) :
    sourceOperands f s = none := by
  unfold sourceOperands
  rcases h with h | h
  · rw [State.readReg?_of_ge _ _ h]
  · rw [State.readReg?_of_ge _ _ h]
    split <;> simp_all

/-! ### the execute stage -/

/-- The stage where the sources can be read and the ALU answers. -/
theorem executeStage_of_alu {op : OpCode} {f : Fields} {action : State → State → Int → Flag → State} {s : State}
    {l r v : Int} {fl : Flag} (hs : sourceOperands f s = some (l, r)) (ha : alu op l r = some (v, fl)) :
    executeStage op f action s = action s s.advancePc v fl := by
  simp only [executeStage, hs, ha]

/-- The stage where a source index names no register (R165, R167). -/
theorem executeStage_of_no_source {op : OpCode} {f : Fields} {action : State → State → Int → Flag → State}
    {s : State} (hs : sourceOperands f s = none) :
    executeStage op f action s = s.raise .registerIndexFault s := by
  simp only [executeStage, hs]

/-- The stage where the ALU rejects the operation (R101, R164). -/
theorem executeStage_of_no_alu {op : OpCode} {f : Fields} {action : State → State → Int → Flag → State}
    {s : State} {l r : Int} (hs : sourceOperands f s = some (l, r)) (ha : alu op l r = none) :
    executeStage op f action s = s.raise .unsupportedOperation s.advancePc := by
  simp only [executeStage, hs, ha]

/-- Everything the stage can do. -/
theorem executeStage_cases (op : OpCode) (f : Fields) (action : State → State → Int → Flag → State) (s : State) :
    (sourceOperands f s = none ∧ executeStage op f action s = s.raise .registerIndexFault s) ∨
    (∃ l r, sourceOperands f s = some (l, r) ∧ alu op l r = none ∧
      executeStage op f action s = s.raise .unsupportedOperation s.advancePc) ∨
    (∃ l r v fl, sourceOperands f s = some (l, r) ∧ alu op l r = some (v, fl) ∧
      executeStage op f action s = action s s.advancePc v fl) := by
  cases hs : sourceOperands f s with
  | none => exact .inl ⟨rfl, executeStage_of_no_source hs⟩
  | some p =>
    obtain ⟨l, r⟩ := p
    cases ha : alu op l r with
    | none => exact .inr (.inl ⟨l, r, rfl, ha, executeStage_of_no_alu hs ha⟩)
    | some q =>
      obtain ⟨v, fl⟩ := q
      exact .inr (.inr ⟨l, r, v, fl, rfl, ha, executeStage_of_alu hs ha⟩)

/-! ### the actions -/

/-- Every instruction is the one shared path with its own action. -/
theorem exec_eq_perform (i : Instr) (s : State) : exec i s = perform i.op i.fields (actionOf i) s := by
  cases i <;> rfl

/-- Every instruction answers a next state: a skip or the execute stage. -/
theorem exec_eq (i : Instr) (s : State) :
    exec i s = .next (if conditionMet i.fields.cond s.cc then executeStage i.op i.fields (actionOf i) s
      else s.advancePc) := exec_eq_perform i s

/-- Everything an instruction can do. -/
theorem exec_cases {i : Instr} {s t : State} (h : exec i s = .next t) :
    (conditionMet i.fields.cond s.cc = false ∧ t = s.advancePc) ∨
    (conditionMet i.fields.cond s.cc = true ∧ t = executeStage i.op i.fields (actionOf i) s) := by
  rw [exec_eq] at h
  injection h with h
  cases hc : conditionMet i.fields.cond s.cc with
  | false => exact .inl ⟨rfl, by simp [← h, hc]⟩
  | true => exact .inr ⟨rfl, by simp [← h, hc]⟩

/-- An instruction whose test fails (R95). -/
theorem exec_of_skipped {i : Instr} {s : State} (h : conditionMet i.fields.cond s.cc = false) :
    exec i s = .next s.advancePc := by
  simp [exec_eq, h]

/-- An executed instruction whose operands can be read and whose operation the ALU has: its action, on the
state after the pc advance (R98). -/
theorem exec_of_alu {i : Instr} {s : State} {l r v : Int} {fl : Flag}
    (hc : conditionMet i.fields.cond s.cc = true) (hs : sourceOperands i.fields s = some (l, r))
    (ha : alu i.op l r = some (v, fl)) : exec i s = .next (actionOf i s s.advancePc v fl) := by
  rw [exec_eq, if_pos hc, executeStage_of_alu hs ha]

/-- The ALU has the operation of every instruction (R74, R117). -/
theorem alu_op_isSome (i : Instr) (l r : Int) : ∃ v fl, alu i.op l r = some (v, fl) := by
  cases i <;> exact ⟨_, _, rfl⟩

/-- Everything an executed instruction can do: the fault of a source index, or its action. -/
theorem exec_executed_cases {i : Instr} {s t : State} (hc : conditionMet i.fields.cond s.cc = true)
    (h : exec i s = .next t) :
    (sourceOperands i.fields s = none ∧ t = s.raise .registerIndexFault s) ∨
    (∃ l r v fl, sourceOperands i.fields s = some (l, r) ∧ alu i.op l r = some (v, fl) ∧
      t = actionOf i s s.advancePc v fl) := by
  rw [exec_eq, if_pos hc] at h
  injection h with h
  subst h
  rcases executeStage_cases i.op i.fields (actionOf i) s with ⟨hs, he⟩ | ⟨l, r, hs, ha, he⟩ | ⟨l, r, v, fl, hs, ha, he⟩
  · exact .inl ⟨hs, he⟩
  · obtain ⟨v, fl, hv⟩ := alu_op_isSome i l r
    rw [hv] at ha
    cases ha
  · exact .inr ⟨l, r, v, fl, hs, ha, he⟩

/-- The write-back of an arithmetic instruction to a register 0 to 15. -/
theorem writeBack_of_lt {f : Fields} (pre s : State) (v : Int) (fl : Flag) (h : f.target < 16) :
    writeBack f pre s v fl = (s.setReg f.target (pat v)).setCc fl.bits := by
  simp only [writeBack, State.writeReg?_of_lt _ _ _ h]

/-- The write-back to an index above 15 (R165). -/
theorem writeBack_of_ge {f : Fields} (pre s : State) (v : Int) (fl : Flag) (h : 16 ≤ f.target) :
    writeBack f pre s v fl = pre.raise .registerIndexFault s := by
  simp only [writeBack, State.writeReg?_of_ge _ _ _ h]

/-- A load from inside memory into a register 0 to 15. -/
theorem loadWord_of_read {f : Fields} (pre s : State) {ea : Int} (fl : Flag) {d : Word}
    (hd : s.mem.read? ea = some d) (h : f.target < 16) :
    loadWord f pre s ea fl = (s.setReg f.target d).setCc fl.bits := by
  simp only [loadWord, hd, State.writeReg?_of_lt _ _ _ h]

/-- A load from outside memory (R162). -/
theorem loadWord_of_outside {f : Fields} (pre s : State) {ea : Int} (fl : Flag) (hd : s.mem.read? ea = none) :
    loadWord f pre s ea fl = pre.raise (.addressFault .load ea) s := by
  simp only [loadWord, hd]

/-- A load from inside memory into an index above 15 (R165). -/
theorem loadWord_of_ge {f : Fields} (pre s : State) {ea : Int} (fl : Flag) {d : Word}
    (hd : s.mem.read? ea = some d) (h : 16 ≤ f.target) :
    loadWord f pre s ea fl = pre.raise .registerIndexFault s := by
  simp only [loadWord, hd, State.writeReg?_of_ge _ _ _ h]

/-- A store inside memory from a register 0 to 15. -/
theorem storeWord_of_write {f : Fields} (pre s : State) {ea : Int} (fl : Flag) {m : Memory}
    (h : f.target < 16) (hm : s.mem.write? ea (s.reg f.target) = some m) :
    storeWord f pre s ea fl = (s.setMem m).setCc fl.bits := by
  simp only [storeWord, State.readReg?_of_lt _ _ h, hm]

/-- A store outside memory (R162). -/
theorem storeWord_of_outside {f : Fields} (pre s : State) {ea : Int} (fl : Flag)
    (h : f.target < 16) (hm : s.mem.write? ea (s.reg f.target) = none) :
    storeWord f pre s ea fl = pre.raise (.addressFault .store ea) s := by
  simp only [storeWord, State.readReg?_of_lt _ _ h, hm]

/-- A store from an index above 15 (R165). -/
theorem storeWord_of_ge {f : Fields} (pre s : State) (ea : Int) (fl : Flag) (h : 16 ≤ f.target) :
    storeWord f pre s ea fl = pre.raise .registerIndexFault s := by
  simp only [storeWord, State.readReg?_of_ge _ _ h]

/-- The write-back leaves memory alone. -/
theorem writeBack_mem (f : Fields) (pre s : State) (v : Int) (fl : Flag) : (writeBack f pre s v fl).mem = s.mem := by
  rcases Nat.lt_or_ge f.target 16 with h | h
  · rw [writeBack_of_lt pre s v fl h]
    rfl
  · rw [writeBack_of_ge pre s v fl h]
    rfl

/-- A load leaves memory alone. -/
theorem loadWord_mem (f : Fields) (pre s : State) (ea : Int) (fl : Flag) : (loadWord f pre s ea fl).mem = s.mem := by
  cases hd : s.mem.read? ea with
  | none => rw [loadWord_of_outside pre s fl hd]; rfl
  | some d =>
    rcases Nat.lt_or_ge f.target 16 with h | h
    · rw [loadWord_of_read pre s fl hd h]
      rfl
    · rw [loadWord_of_ge pre s fl hd h]
      rfl

/-- A store leaves memory alone, or memory is the one write at its address. -/
theorem storeWord_mem (f : Fields) (pre s : State) (ea : Int) (fl : Flag) :
    (storeWord f pre s ea fl).mem = s.mem ∨
    (f.target < 16 ∧ s.mem.write? ea (s.reg f.target) = some (storeWord f pre s ea fl).mem) := by
  rcases Nat.lt_or_ge f.target 16 with h | h
  · cases hm : s.mem.write? ea (s.reg f.target) with
    | none => rw [storeWord_of_outside pre s fl h hm]; exact .inl rfl
    | some m => rw [storeWord_of_write pre s fl h hm]; exact .inr ⟨h, rfl⟩
  · rw [storeWord_of_ge pre s ea fl h]
    exact .inl rfl

end Sys2Proof.Machine
end

