-- ==== Sys2Proof/Laws/Run.lean ====
section
/-! SUPPORT. The run loop one step at a time, and the same of the host's bounded run. -/

namespace Sys2Proof.Machine

/-- A step that is taken (R103). -/
theorem runLoop_of_next {k : Nat} {s t : State} (h : step s = .next t) : runLoop (k + 1) s = runLoop k t := by
  simp [runLoop, h]

/-- A block that takes no step stays where it is (R104). -/
theorem runLoop_of_stop (k : Nat) {s : State} (h : ¬∃ t, step s = .next t) : runLoop k s = s := by
  cases k with
  | zero => rfl
  | succ k =>
    cases hs : step s with
    | next t => exact absurd ⟨t, hs⟩ h
    | fault r => simp [runLoop, hs]
    | refused r => simp [runLoop, hs]

/-- The host's run as a match on the first step, for any machine. -/
theorem coreRun_succ (M : Host.Core) (k : Nat) (s : M.State) :
    M.run (k + 1) s =
      (match M.step s with
       | .next t => M.run k t
       | .fault r => .fault r
       | .refused r => .refused r) := by
  rfl

/-- A step that the host's run of a machine takes. -/
theorem coreRun_of_next (M : Host.Core) {k : Nat} {s t : M.State} (h : M.step s = .next t) :
    M.run (k + 1) s = M.run k t := by
  rw [coreRun_succ, h]

/-- The host's run of this block, where a step is taken. -/
theorem core_run_of_next {k : Nat} {s t : State} (h : step s = .next t) :
    Host.Core.run Sys2Proof.core (k + 1) s = Host.Core.run Sys2Proof.core k t :=
  coreRun_of_next Sys2Proof.core h

end Sys2Proof.Machine
end

