-- ==== Sys2Proof/Laws/Step.lean ====
section
/-! SUPPORT. What a step of the block can do, said once. -/

namespace Sys2Proof.Machine

/-- A faulted block takes no step (R32). -/
theorem step_of_faulted {s : State} {r : FaultRecord} (h : s.faulted = some r) : step s = .fault (.faulted r) := by
  simp only [step, blockStep, h]

/-- A halted block takes no step (R104). -/
theorem step_of_halted {s : State} (hf : s.faulted = none) (h : s.halted = true) : step s = .fault .halted := by
  simp only [step, blockStep, hf, h, if_true]

/-- A running block takes the step of R90. -/
theorem step_of_running {s : State} (hh : s.halted = false) (hf : s.faulted = none) : step s = cycle s := by
  simp [step, blockStep, hf, hh]

/-- The fetch outside memory (R91). -/
theorem cycle_of_no_fetch {s : State} (h : s.fetch? = none) :
    cycle s = .next (s.raise (.addressFault .fetch (val s.pc)) s) := by
  simp only [cycle, h]

/-- The word that does not decode (R92). -/
theorem cycle_of_rejected {s : State} {w : Word} {e : DecodeError} (h : s.fetch? = some w)
    (hd : decode w = .rejected e) : cycle s = .next (s.raise .decodeFault s) := by
  simp only [cycle, h, hd]

/-- The word that decodes runs its instruction. -/
theorem cycle_of_instruction {s : State} {w : Word} {i : Instr} (h : s.fetch? = some w)
    (hd : decode w = .instruction i) : cycle s = exec i s := by
  simp only [cycle, h, hd]

/-- Everything a step that answers a next state can be. -/
theorem step_cases {s t : State} (h : step s = .next t) :
    s.halted = false ∧ s.faulted = none ∧
    ((s.fetch? = none ∧ t = s.raise (.addressFault .fetch (val s.pc)) s) ∨
     (∃ w e, s.fetch? = some w ∧ decode w = .rejected e ∧ t = s.raise .decodeFault s) ∨
     (∃ w i, s.fetch? = some w ∧ decode w = .instruction i ∧ exec i s = .next t)) := by
  cases hf : s.faulted with
  | some r => rw [step_of_faulted hf] at h; cases h
  | none =>
    cases hh : s.halted with
    | true => rw [step_of_halted hf hh] at h; cases h
    | false =>
      refine ⟨rfl, rfl, ?_⟩
      rw [step_of_running hh hf] at h
      cases hw : s.fetch? with
      | none =>
        rw [cycle_of_no_fetch hw] at h
        exact .inl ⟨rfl, by injection h with h; exact h.symm⟩
      | some w =>
        cases hd : decode w with
        | rejected e =>
          rw [cycle_of_rejected hw hd] at h
          exact .inr (.inl ⟨w, e, rfl, hd, by injection h with h; exact h.symm⟩)
        | instruction i =>
          rw [cycle_of_instruction hw hd] at h
          exact .inr (.inr ⟨w, i, rfl, hd, h⟩)

end Sys2Proof.Machine
end

