-- ==== Sys2Proof/Machine/Assembly.lean ====
section
/-! DEFINITION. The notation of R80 (the spec's decision D19): one line of text to its word, and an
instruction to its line. No part of the machine; the listings of the spec are written in it. Blanks are
as in those listings (log 21). -/

namespace Sys2Proof.Machine

/-- The name of an operation and the text after it. -/
def readOp : List Char → Option (OpCode × List Char)
  | 'A' :: 'D' :: 'D' :: cs => some (.add, cs)
  | 'S' :: 'U' :: 'B' :: cs => some (.sub, cs)
  | 'M' :: 'U' :: 'L' :: cs => some (.mul, cs)
  | 'D' :: 'I' :: 'V' :: cs => some (.div, cs)
  | 'L' :: 'O' :: 'A' :: 'D' :: cs => some (.load, cs)
  | 'S' :: 'T' :: 'O' :: 'R' :: 'E' :: cs => some (.store, cs)
  | 'H' :: 'A' :: 'L' :: 'T' :: cs => some (.halt, cs)
  | _ => none

/-- The bit of a mask letter (R28). -/
def maskLetter : Char → Option (BitVec 4)
  | 'M' => some 1#4
  | 'Z' => some 2#4
  | 'P' => some 4#4
  | 'V' => some 8#4
  | _ => none

/-- Mask letters, each at most once and in any order, up to a space or the end. -/
def readLetters : BitVec 4 → List Char → Option (BitVec 4 × List Char)
  | m, [] => some (m, [])
  | m, c :: cs =>
    if c = ' ' then some (m, c :: cs)
    else
      match maskLetter c with
      | none => none
      | some b => if m &&& b = 0#4 then readLetters (m ||| b) cs else none

/-- `[/COND]`: ALWAYS where it is left out, the word NEVER, or one or more letters. -/
def readMask : List Char → Option (BitVec 4 × List Char)
  | '/' :: 'N' :: 'E' :: 'V' :: 'E' :: 'R' :: cs => some (0#4, cs)
  | '/' :: c :: cs => if c = ' ' then none else readLetters 0#4 (c :: cs)
  | ['/'] => none
  | cs => some (15#4, cs)

/-- The value of a digit in a base up to 16. DESIGN CHOICE (log 22), safe: a hexadecimal digit may be of either
case. -/
def digitValue (base : Nat) (c : Char) : Option Nat :=
  let n := c.toNat
  let v :=
    if 48 ≤ n ∧ n ≤ 57 then n - 48
    else if 65 ≤ n ∧ n ≤ 70 then n - 55
    else if 97 ≤ n ∧ n ≤ 102 then n - 87
    else base
  if v < base then some v else none

/-- The digits at the front of a text, after a value already read. -/
def readDigits (base : Nat) : Nat → List Char → Nat × List Char
  | v, [] => (v, [])
  | v, c :: cs =>
    match digitValue base c with
    | some d => readDigits base (v * base + d) cs
    | none => (v, c :: cs)

/-- A number of at least one digit. DESIGN CHOICE (log 22), safe: leading zeros are accepted. -/
def readNat (base : Nat) : List Char → Option (Nat × List Char)
  | [] => none
  | c :: cs =>
    match digitValue base c with
    | some d => some (readDigits base d cs)
    | none => none

/-- A decimal integer. DESIGN CHOICE (log 22), safe: no plus sign, and -0 is 0. -/
def readInt : List Char → Option (Int × List Char)
  | '-' :: cs => (readNat 10 cs).map fun p => (-(p.1 : Int), p.2)
  | cs => (readNat 10 cs).map fun p => ((p.1 : Int), p.2)

/-- `r0` to `r15`. DESIGN CHOICE (log 22), safe: the index may have leading zeros. -/
def readReg : List Char → Option (Nat × List Char)
  | 'r' :: cs =>
    match readNat 10 cs with
    | some (n, rest) => if n < 16 then some (n, rest) else none
    | none => none
  | _ => none

/-- A comma. -/
def readComma : List Char → Option (List Char)
  | ',' :: cs => some cs
  | _ => none

/-- `[off]` at the end of a line; 0 where it is left out. -/
def readOffset : List Char → Option Int
  | [] => some 0
  | '[' :: cs =>
    match readInt cs with
    | some (k, [']']) => if -512 ≤ k ∧ k ≤ 511 then some k else none
    | _ => none
  | _ => none

/-- `rT,rA,rB[off]`. -/
def readOperands (cond : BitVec 4) (cs : List Char) : Option Fields := do
  let (t, cs) ← readReg cs
  let (a, cs) ← (readComma cs).bind readReg
  let (b, cs) ← (readComma cs).bind readReg
  let k ← readOffset cs
  return { cond := cond, target := t, src1 := a, src2 := b, offset := k }

/-- The instruction of an operation and its fields. -/
def instrOf (f : Fields) : OpCode → Option Instr
  | .halt => some (.halt f)
  | .load => some (.load f)
  | .store => some (.store f)
  | .add => some (.add f)
  | .sub => some (.sub f)
  | .mul => some (.mul f)
  | .div => some (.div f)
  | .other _ => none

/-- `OP[/COND] rT,rA,rB[off]`; HALT may stand without operands. -/
def readInstr (cs : List Char) : Option Instr := do
  let (op, cs) ← readOp cs
  let (cond, cs) ← readMask cs
  match cs with
  | [] => if op = .halt then instrOf { cond := cond, target := 0, src1 := 0, src2 := 0, offset := 0 } op else none
  | ' ' :: cs => (readOperands cond cs).bind fun f => instrOf f op
  | _ => none

/-- The number of a `.word`: decimal in [WMIN, WMAX], or a hexadecimal pattern. DESIGN CHOICE (log 22), safe:
the pattern has the prefix `0x` and any number of digits. -/
def readData : List Char → Option Word
  | '0' :: 'x' :: cs =>
    match readNat 16 cs with
    | some (n, []) => if n < 2 ^ 32 then some (BitVec.ofNat 32 n) else none
    | _ => none
  | cs =>
    match readInt cs with
    | some (k, []) => if wmin ≤ k ∧ k ≤ wmax then some (pat k) else none
    | _ => none

/-- The text before a comment, without the blanks that end it. -/
def stripComment (cs : List Char) : List Char :=
  ((cs.takeWhile fun c => c != ';').reverse.dropWhile fun c => c == ' ').reverse

/-- The word of one line (R80): an instruction's encoding, or `.word n`. -/
def assembleLine (line : List Char) : Option Word :=
  match stripComment line with
  | '.' :: 'w' :: 'o' :: 'r' :: 'd' :: ' ' :: cs => readData cs
  | cs => (readInstr cs).map encode

/-- The name of an operation. -/
def opText : OpCode → List Char
  | .halt => ['H', 'A', 'L', 'T']
  | .load => ['L', 'O', 'A', 'D']
  | .store => ['S', 'T', 'O', 'R', 'E']
  | .add => ['A', 'D', 'D']
  | .sub => ['S', 'U', 'B']
  | .mul => ['M', 'U', 'L']
  | .div => ['D', 'I', 'V']
  | .other _ => []

/-- The mask as text, its letters in the order M, Z, P, V; nothing for ALWAYS. -/
def maskText (m : BitVec 4) : List Char :=
  if m = 15#4 then []
  else if m = 0#4 then ['/', 'N', 'E', 'V', 'E', 'R']
  else
    '/' :: [('M', 1#4), ('Z', 2#4), ('P', 4#4), ('V', 8#4)].filterMap
      fun p => if m &&& p.2 = 0#4 then none else some p.1

/-- A number below 1000 in decimal, without leading zeros. -/
def natText (n : Nat) : List Char :=
  let d := fun k => Char.ofNat (48 + k % 10)
  if n < 10 then [d n] else if n < 100 then [d (n / 10), d n] else [d (n / 100), d (n / 10), d n]

/-- An instruction in the ranges of R70 as its line, with `[off]` always written. -/
def instrText (i : Instr) : List Char :=
  let f := i.fields
  opText i.op ++ maskText f.cond ++ [' ', 'r'] ++ natText f.target ++ [',', 'r'] ++ natText f.src1 ++
    [',', 'r'] ++ natText f.src2 ++ ['['] ++ (if f.offset < 0 then ['-'] else []) ++ natText f.offset.natAbs ++ [']']

end Sys2Proof.Machine
end

