-- ==== Sys2Proof/Tests/Slice0.lean ====
section
/-! SUPPORT. The package's own tests. The words and the expected results are those of 95_test_vectors.md (its
row is named in each comment), which gives them from the rules; a theorem witness_<Name> shows states and
operands that meet the hypotheses of the statement Obligations.<Name>. -/

namespace Sys2Proof.Tests

open Sys2Proof.Machine Sys2Proof.Safety

/-! ### helpers -/

/-- A block after reset with `n` words of memory, all unlisted. -/
def blank (n : Nat) : State := State.resetWith { size := n, cells := [] }

/-- The host's write of one word. -/
def poke (s : State) (a : Int) (w : Word) : State := (hostPut s a w).getD s

/-- A block of 64 words about to fetch `w` at `pc`, with `CC` = P. -/
def ready (pc w : Word) : State := poke (((blank 64).setPc pc).setCc 4#4) (val pc) w

/-- The next state of an outcome. -/
def after : Host.Outcome State Fault Refusal → Option State
  | .next t => some t
  | .fault _ => none
  | .refused _ => none

/-- One register, the flag and the pc after one step. -/
def seen (s : State) (r : Nat) : Option (Word × BitVec 4 × Word) :=
  (after (step s)).map fun t => (t.reg r, t.cc, t.pc)

/-- An outcome that has a next state with a property. -/
theorem next_of_any {o : Host.Outcome State Fault Refusal} {p : State → Bool} (h : (after o).any p = true) :
    ∃ t, o = .next t ∧ p t = true := by
  cases o with
  | next t => exact ⟨t, rfl, h⟩
  | fault r => cases h
  | refused r => cases h

/-! ### well-formedness: an ill-formed term for each check -/

theorem test_wellFormed_bounds :
    (Instr.mul ⟨15#4, 15, 15, 15, -512⟩).wellFormed = true ∧ (Instr.sub ⟨0#4, 0, 0, 0, 511⟩).wellFormed = true := by
  decide

theorem test_wellFormed_refuses_target_16 : (Instr.add ⟨15#4, 16, 0, 0, 0⟩).wellFormed = false := by decide

theorem test_wellFormed_refuses_src1_16 : (Instr.load ⟨15#4, 0, 16, 0, 0⟩).wellFormed = false := by decide

theorem test_wellFormed_refuses_src2_16 : (Instr.store ⟨15#4, 0, 0, 16, 0⟩).wellFormed = false := by decide

theorem test_wellFormed_refuses_offset_512 : (Instr.div ⟨15#4, 0, 0, 0, 512⟩).wellFormed = false := by decide

theorem test_wellFormed_refuses_offset_minus_513 : (Instr.halt ⟨15#4, 0, 0, 0, -513⟩).wellFormed = false := by
  decide

/-! ### decoding: words written bit by bit from table E (bit 31, operation, mask, target, two sources, offset) -/

/-- 0 00000 1111 0000 0000 0000 0000000000, `HALT`. -/
theorem test_decode_halt :
    decode 0b00000011110000000000000000000000#32 = .instruction (.halt ⟨15#4, 0, 0, 0, 0⟩) := by decide

/-- 0 00001 0010 0001 0000 0000 1111111111, `LOAD/Z r1,r0,r0[-1]`. -/
theorem test_decode_load :
    decode 0b00000100100001000000001111111111#32 = .instruction (.load ⟨2#4, 1, 0, 0, -1⟩) := by decide

/-- 0 00010 1111 1111 0000 0000 0000001000, `STORE r15,r0,r0[8]`. -/
theorem test_decode_store :
    decode 0b00001011111111000000000000001000#32 = .instruction (.store ⟨15#4, 15, 0, 0, 8⟩) := by decide

/-- 0 00011 0100 1111 1111 0000 1111111110, `ADD/P r15,r15,r0[-2]`. -/
theorem test_decode_add :
    decode 0b00001101001111111100001111111110#32 = .instruction (.add ⟨4#4, 15, 15, 0, -2⟩) := by decide

/-- 0 00101 1010 1110 1101 1100 0111111111, `SUB/ZV r14,r13,r12[511]`. -/
theorem test_decode_sub :
    decode 0b00010110101110110111000111111111#32 = .instruction (.sub ⟨10#4, 14, 13, 12, 511⟩) := by decide

/-- 0 00110 1111 1111 1111 1111 1000000000, `MUL r15,r15,r15[-512]`. -/
theorem test_decode_mul :
    decode 0b00011011111111111111111000000000#32 = .instruction (.mul ⟨15#4, 15, 15, 15, -512⟩) := by decide

/-- 0 00111 0001 0110 0101 0000 0000000010, `DIV/M r6,r5,r0[2]`. -/
theorem test_decode_div :
    decode 0b00011100010110010100000000000010#32 = .instruction (.div ⟨1#4, 6, 5, 0, 2⟩) := by decide

/-- Table E, `SUB/ZP r7,r8,r9[-100]`: the encoder's word. -/
theorem test_encode_sub : encode (.sub ⟨6#4, 7, 8, 9, -100⟩) = 0x159E279C#32 := by decide

/-- Table E, the illegal words, and the legal neighbour 0x1FFFFFFF. -/
theorem test_decode_illegal :
    decode 0x10000000#32 = .rejected (.unassignedOperation 4) ∧
    decode 0x13C00000#32 = .rejected (.unassignedOperation 4) ∧
    decode 0x20000000#32 = .rejected (.unassignedOperation 8) ∧
    decode 0x7FFFFFFF#32 = .rejected (.unassignedOperation 31) ∧
    decode 0x80000000#32 = .rejected .reservedBit ∧ decode 0x8FC40005#32 = .rejected .reservedBit ∧
    decode 0x1FFFFFFF#32 = .instruction (.div ⟨15#4, 15, 15, 15, -1⟩) := by decide

/-- The opcode table's bits of a row: ADD with every operand field zero. -/
theorem test_decodeTableWord_add : decodeTableWord 32 0x0C000000 = some (.add ⟨0#4, 0, 0, 0, 0⟩) := by decide

/-! ### the condition test and the ALU alone -/

/-- Table K, the column P. -/
theorem test_masks_met_by_p :
    ((List.range 16).filter fun m => conditionMet (BitVec.ofNat 4 m) 4#4) = [4, 5, 6, 7, 12, 13, 14, 15] := by
  decide

/-- Table A, the ALU alone: addresses beyond 32 bits keep their class, HALT is (0, Z). -/
theorem test_alu_addresses :
    alu .load 2147483647 2147484158 = some (4294967805, .p) ∧
    alu .store (-2147483648) (-2147484160) = some (-4294967808, .m) ∧
    alu .halt 123 (-456) = some (0, .z) := by decide

/-! ### one step of each instruction -/

/-- T1: `ADD r1,r1,r0[3]`, the target is the source. -/
theorem test_add_target_is_source :
    seen (((ready 10#32 0x0FC44003#32).setReg 1 4#32).setCc 1#4) 1 = some (7#32, 4#4, 11#32) := by decide

/-- Table A: ADD of WMIN and WMAX + 1, the operand beyond 32 bits, the result exactly 0 (D4). -/
theorem test_add_wide_operand :
    seen (((ready 10#32 0x0FCC4801#32).setReg 1 0x80000000#32).setReg 2 0x7FFFFFFF#32) 3 =
      some (0#32, 2#4, 11#32) := by decide

/-- Table A: SUB of -1 and WMAX is WMIN, in range. -/
theorem test_sub_reaches_wmin :
    seen (((ready 10#32 0x17CC4800#32).setReg 1 0xFFFFFFFF#32).setReg 2 0x7FFFFFFF#32) 3 =
      some (0x80000000#32, 1#4, 11#32) := by decide

/-- Table A: SUB of 0 and WMIN overflows (D3). -/
theorem test_sub_negating_wmin :
    seen ((ready 10#32 0x17CC0800#32).setReg 2 0x80000000#32) 3 = some (0#32, 8#4, 11#32) := by decide

/-- Table A: MUL of 65536 and -32768 is exactly WMIN. -/
theorem test_mul_reaches_wmin :
    seen (((ready 10#32 0x1BCC4800#32).setReg 1 65536#32).setReg 2 0xFFFF8000#32) 3 =
      some (0x80000000#32, 1#4, 11#32) := by decide

/-- Table A: MUL of 9 and 2 + 1, the offset joins the second factor. -/
theorem test_mul_offset_joins_factor :
    seen (((ready 10#32 0x1BCC4801#32).setReg 1 9#32).setReg 2 2#32) 3 = some (27#32, 4#4, 11#32) := by decide

/-- Table A: DIV of -7 and 2 is the floor -4. -/
theorem test_div_floors :
    seen ((ready 10#32 0x1FD94002#32).setReg 5 0xFFFFFFF9#32) 6 = some (0xFFFFFFFC#32, 1#4, 11#32) := by decide

/-- T7: `DIV r15,r2,r0[0]`, a division by zero into the pc. -/
theorem test_div_by_zero_into_pc :
    seen (ready 10#32 0x1FFC8000#32) 15 = some (0#32, 8#4, 0#32) := by decide

/-- L7: `LOAD r1,r1,r0[0]`, the target is the base; the flag is the address's. -/
theorem test_load_target_is_base :
    seen ((poke (ready 5#32 0x07C44000#32) 9 8#32).setReg 1 9#32) 1 = some (8#32, 4#4, 6#32) := by decide

/-- L11: a load beyond 32 bits faults at the exact address, the pc advanced, the target kept. -/
theorem test_load_beyond_32_bits :
    (after (step (((ready 5#32 0x07CC49FF#32).setReg 1 0x7FFFFFFF#32).setReg 2 0x7FFFFFFF#32))).map
        (fun t => (t.faulted, t.pc, t.reg 3)) =
      some (some ⟨.addressFault .load 4294967805, 5#32, some 0x07CC49FF#32⟩, 6#32, 0#32) := by decide

/-- S5: `STORE r15,r0,r0[20]` stores the address of the next instruction (D25). -/
theorem test_store_pc :
    (after (step (ready 4#32 0x0BFC0014#32))).map (fun t => (t.mem.read? 20, t.cc, t.pc)) =
      some (some 5#32, 4#4, 5#32) := by decide

/-- S3: `STORE r2,r0,r0[0]`, address 0 gives Z. -/
theorem test_store_to_zero :
    (after (step ((ready 4#32 0x0BC80000#32).setReg 2 10#32))).map (fun t => (t.mem.read? 0, t.cc, t.pc)) =
      some (some 10#32, 2#4, 5#32) := by decide

/-- H6: `HALT r5,r5,r15[-1]`, the operand fields ignored. -/
theorem test_halt_ignores_operands :
    (after (step (((ready 7#32 0x03D57FFF#32).setReg 5 9#32).setCc 1#4))).map
      (fun t => (t.halted, t.pc, t.reg 5, t.cc)) = some (true, 8#32, 9#32, 1#4) := by decide

/-- H4: `HALT/P` under Z is skipped. -/
theorem test_halt_skipped :
    (after (step ((ready 7#32 0x01000000#32).setCc 2#4))).map (fun t => (t.halted, t.pc)) =
      some (false, 8#32) := by decide

/-! ### faults and the host's placing -/

/-- F2: a fetch at -1. -/
theorem test_fetch_at_minus_one :
    (after (step ((blank 64).setPc 0xFFFFFFFF#32))).map (fun t => (t.faulted, t.pc)) =
      some (some ⟨.addressFault .fetch (-1), 0xFFFFFFFF#32, none⟩, 0xFFFFFFFF#32) := by decide

/-- F4: an illegal word faults although its mask would be skipped. -/
theorem test_illegal_word_under_a_failing_mask :
    (after (step (ready 3#32 0x10000000#32))).map (fun t => (t.faulted, t.pc)) =
      some (some ⟨.decodeFault, 3#32, some 0x10000000#32⟩, 3#32) := by decide

/-- The instruction placed is the first to run after reset: `ADD r1,r0,r0[5]` (program P1). -/
theorem test_withFetchWord_from_reset : seen (State.reset.withFetchWord 32 0x0FC40005) 1 = some (5#32, 4#4, 1#32) := by
  decide

/-! ### the notation of R80 -/

/-- The example of R80, `ADD/P r15,r15,r0[-2]`. -/
theorem test_assemble_add :
    assembleLine ['A', 'D', 'D', '/', 'P', ' ', 'r', '1', '5', ',', 'r', '1', '5', ',', 'r', '0', '[', '-', '2', ']'] =
      some 0x0D3FC3FE#32 := by decide

/-- `SUB/ZV r14,r13,r12[511]` of table E, its letters in the other order, and with a comment. -/
theorem test_assemble_sub :
    assembleLine ['S', 'U', 'B', '/', 'V', 'Z', ' ', 'r', '1', '4', ',', 'r', '1', '3', ',', 'r', '1', '2', '[', '5', '1', '1', ']', ' ', ';', 'x'] = some 0x16BB71FF#32 := by decide

/-- `HALT`, `HALT/NEVER` and `.word -1` (table E, program P8). -/
theorem test_assemble_short_forms :
    assembleLine ['H', 'A', 'L', 'T'] = some 0x03C00000#32 ∧
    assembleLine ['H', 'A', 'L', 'T', '/', 'N', 'E', 'V', 'E', 'R'] = some 0#32 ∧
    assembleLine ['.', 'w', 'o', 'r', 'd', ' ', '-', '1'] = some 0xFFFFFFFF#32 := by decide

/-- A register above 15, an offset of 512, a mask letter twice, and an ADD without operands are refused. -/
theorem test_assemble_refuses :
    assembleLine ['A', 'D', 'D', ' ', 'r', '1', '6', ',', 'r', '0', ',', 'r', '0'] = none ∧
    assembleLine ['A', 'D', 'D', ' ', 'r', '1', ',', 'r', '0', ',', 'r', '0', '[', '5', '1', '2', ']'] = none ∧
    assembleLine ['H', 'A', 'L', 'T', '/', 'M', 'M'] = none ∧
    assembleLine ['A', 'D', 'D'] = none := by decide

/-- The line of `STORE r15,r0,r0[8]` (table E). -/
theorem test_instrText_store :
    instrText (.store ⟨15#4, 15, 0, 0, 8⟩) =
      ['S', 'T', 'O', 'R', 'E', ' ', 'r', '1', '5', ',', 'r', '0', ',', 'r', '0', '[', '8', ']'] := by decide

/-! ### witnesses for the statements -/

/-- A block of 64 words with `CC` = P and chosen values in registers 1 and 2. -/
def two (a b : Word) : State := (((blank 64).setCc 4#4).setReg 1 a).setReg 2 b

/-- The fields `r3,r1,r2[off]` under ALWAYS. -/
def r312 (off : Int) : Fields := ⟨15#4, 3, 1, 2, off⟩

theorem witness_DecodeAndEncodeAgree :
    (Instr.mul ⟨15#4, 15, 15, 15, -512⟩).wellFormed = true ∧ (Instr.sub ⟨0#4, 0, 0, 0, 511⟩).wellFormed = true := by
  decide

theorem witness_EncodeOfADecodedWordIsTheWord :
    decode 0x07FFFFFF#32 = .instruction (.load ⟨15#4, 15, 15, 15, -1⟩) ∧
    decode 0x00000000#32 = .instruction (.halt ⟨0#4, 0, 0, 0, 0⟩) := by decide

theorem witness_IllegalWordsRaiseDecodeFault :
    (Running (ready 3#32 0x20000000#32) ∧ (ready 3#32 0x20000000#32).mem.read? 3 = some 0x20000000#32 ∧
      decode 0x20000000#32 = .rejected (.unassignedOperation 8)) ∧
    ∃ t, step (ready 3#32 0x10000000#32) = .next t ∧
      (t.faulted == some ⟨.decodeFault, 3#32, some 0x10000000#32⟩) = true :=
  ⟨by unfold Running; decide, next_of_any (by decide)⟩

theorem witness_DecodedFieldsAreTheWordsBits :
    decode 0x159E279C#32 = .instruction (.sub ⟨6#4, 7, 8, 9, -100⟩) := by decide

theorem witness_StepRunsTheDecodedInstruction :
    Running (ready 63#32 0x03C00000#32) ∧
    (ready 63#32 0x03C00000#32).mem.read? (val (ready 63#32 0x03C00000#32).pc) = some 0x03C00000#32 ∧
    decode 0x03C00000#32 = .instruction (.halt ⟨15#4, 0, 0, 0, 0⟩) := by unfold Running; decide

theorem witness_FetchOutsideMemoryFaults :
    (Running ((blank 64).setPc 64#32) ∧ Outside ((blank 64).setPc 64#32) (val 64#32)) ∧
    (Running ((blank 64).setPc 0xFFFFFFFF#32) ∧ Outside ((blank 64).setPc 0xFFFFFFFF#32) (val 0xFFFFFFFF#32)) ∧
    ¬Outside (blank 64) 0 ∧ ¬Outside ((blank 64).setPc 63#32) (val 63#32) := by
  unfold Running Outside; decide

theorem witness_ConditionTestDecidesExecution :
    (Instr.add ⟨12#4, 0, 0, 0, 0⟩).fields.cond &&& (two 0 0).cc ≠ 0#4 ∧
    (Instr.add ⟨11#4, 0, 0, 0, 0⟩).fields.cond &&& (two 0 0).cc = 0#4 := by decide

theorem witness_MaskBitsDecideExecution :
    (blank 64).cc = 15#4 ∧ (two 0 0).cc = 1#4 <<< 2 ∧ ((two 0 0).setCc 1#4).cc = 1#4 <<< 0 ∧
    ((two 0 0).setCc 8#4).cc = 1#4 <<< 3 ∧ (Fields.mk 0#4 0 0 0 0).cond = 0#4 ∧
    (Fields.mk 15#4 0 0 0 0).cond = 15#4 ∧ ccLegal (two 0 0).cc = true := by decide

theorem witness_SkippedInstructionOnlyAdvancesPc :
    (Instr.load ⟨2#4, 1, 0, 0, -1⟩).fields.cond &&& (two 0 0).cc = 0#4 := by decide

/-- Both ends of the offset, with register 0 and with the pc as the sources. -/
theorem witness_OperandsAreReadBeforeTheAdvance :
    (Instr.add ⟨15#4, 1, 0, 0, 511⟩).wellFormed = true ∧ Executes ⟨15#4, 1, 0, 0, 511⟩ (two 0 0) ∧
    (Instr.halt ⟨15#4, 1, 15, 15, -512⟩).wellFormed = true ∧ Executes ⟨15#4, 1, 15, 15, -512⟩ (two 0 0) := by
  unfold Executes; decide

/-- The exact sums WMAX and WMAX + 1 (Table A). -/
theorem witness_AddWritesSumAndFlag :
    (r312 0).wellFormed = true ∧ Executes (r312 0) (two 0x7FFFFFFF#32 0) ∧
    Representable (val ((two 0x7FFFFFFF#32 0).reg 1) + secondOperand (r312 0) (two 0x7FFFFFFF#32 0)) ∧
    (r312 1).wellFormed = true ∧ Executes (r312 1) (two 0x7FFFFFFF#32 0) ∧
    ¬Representable (val ((two 0x7FFFFFFF#32 0).reg 1) + secondOperand (r312 1) (two 0x7FFFFFFF#32 0)) := by
  unfold Executes Representable secondOperand; decide

/-- The exact differences WMIN and WMIN - 1 (Table A). -/
theorem witness_SubWritesDifferenceAndFlag :
    (r312 0).wellFormed = true ∧ Executes (r312 0) (two 0xFFFFFFFF#32 0x7FFFFFFF#32) ∧
    Representable (val 0xFFFFFFFF#32 - val 0x7FFFFFFF#32 - (r312 0).offset) ∧
    (r312 1).wellFormed = true ∧ Executes (r312 1) (two 0xFFFFFFFF#32 0x7FFFFFFF#32) ∧
    ¬Representable (val 0xFFFFFFFF#32 - val 0x7FFFFFFF#32 - (r312 1).offset) := by
  unfold Executes Representable; decide

/-- The products 2147395600 and 2147488281 (Table A). -/
theorem witness_MulWritesProductAndFlag :
    (r312 0).wellFormed = true ∧ Executes (r312 0) (two 46340#32 46340#32) ∧
    Representable (val 46340#32 * secondOperand (r312 0) (two 46340#32 46340#32)) ∧
    Executes (r312 0) (two 46341#32 46341#32) ∧
    ¬Representable (val 46341#32 * secondOperand (r312 0) (two 46341#32 46341#32)) := by
  unfold Executes Representable secondOperand; decide

/-- The divisor 0 as 5 / (-5 + 5), and WMIN by -1 and by 1 (Table A). -/
theorem witness_DivWritesFloorQuotientAndFlag :
    (r312 5).wellFormed = true ∧ Executes (r312 5) (two 5#32 0xFFFFFFFB#32) ∧
    secondOperand (r312 5) (two 5#32 0xFFFFFFFB#32) = 0 ∧
    (r312 0).wellFormed = true ∧ Executes (r312 0) (two 0x80000000#32 0xFFFFFFFF#32) ∧
    secondOperand (r312 0) (two 0x80000000#32 0xFFFFFFFF#32) = -1 ∧
    secondOperand (r312 0) (two 0x80000000#32 1) = 1 := by
  unfold Executes secondOperand; decide

theorem witness_ArithmeticValueAndFlagAgree :
    ((r312 0).wellFormed = true ∧ Executes (r312 0) (two 7 2)) ∧
    (∃ t, exec (.add (r312 0)) (two 7 2) = .next t ∧ (t.cc == 4#4 && t.reg 3 == 9#32) = true) ∧
    (∃ t, exec (.sub (r312 0)) (two 7 7) = .next t ∧ (t.cc == 2#4 && t.reg 3 == 0#32) = true) ∧
    (∃ t, exec (.mul (r312 0)) (two 7 0xFFFFFFFF#32) = .next t ∧ (t.cc == 1#4 && t.reg 3 == 0xFFFFFFF9#32) = true) ∧
    (∃ t, exec (.div (r312 0)) (two 7 0) = .next t ∧ (t.cc == 8#4 && t.reg 3 == 0#32) = true) :=
  ⟨by unfold Executes; decide, next_of_any (by decide), next_of_any (by decide), next_of_any (by decide),
    next_of_any (by decide)⟩

theorem witness_FlagClassifiesTheResult :
    alu .add 2147483647 1 = some (0, .v) ∧ alu .sub 5 5 = some (0, .z) ∧ alu .mul (-6) 7 = some (-42, .m) ∧
    alu .div 7 2 = some (3, .p) ∧ alu .load 0 9 = some (9, .p) ∧ alu .store 10 (-10) = some (0, .z) := by decide

theorem witness_DivisionByZeroIsFlaggedNotFatal :
    (r312 5).wellFormed = true ∧ Executes (r312 5) (two 0 0xFFFFFFFB#32) ∧
    secondOperand (r312 5) (two 0 0xFFFFFFFB#32) = 0 ∧
    Executes (r312 0) (two 0x80000001#32 0xFFFFFFFF#32) ∧
    secondOperand (r312 0) (two 0x80000001#32 0xFFFFFFFF#32) ≠ 0 ∧
    ¬(val ((two 0x80000001#32 0xFFFFFFFF#32).reg 1) = -2147483648 ∧
      secondOperand (r312 0) (two 0x80000001#32 0xFFFFFFFF#32) = -1) := by
  unfold Executes secondOperand; decide

theorem witness_OverflowGivesZeroAndV :
    Representable (-2147483648) ∧ ¬Representable 2147483648 ∧ (2147483647 : Int) = 2147483646 + 1 ∧
    Representable 2147483647 ∧ (-2147483649 : Int) = -2147483648 - 1 ∧ ¬Representable (-2147483649) := by
  unfold Representable; decide

theorem witness_FloorQuotientLeavesRemainderOfDivisorsSign :
    alu .div (-7) 2 = some (-4, .m) ∧ alu .div 7 (-2) = some (-4, .m) ∧ alu .div 1 2 = some (0, .z) := by decide

theorem witness_UnsupportedOperationIsFatal :
    ((r312 0).src1 < 16 ∧ (r312 0).src2 < 16 ∧ Executes (r312 0) (two 0 0)) ∧
    ∃ t, step (ready 3#32 0x07C403FF#32) = .next t ∧
      (t.faulted == some ⟨.addressFault .load (-1), 3#32, some 0x07C403FF#32⟩) = true :=
  ⟨by unfold Executes; decide, next_of_any (by decide)⟩

theorem witness_HaltIgnoresItsOperands :
    (15 < 16 ∧ 0 < 16 ∧ (Fields.mk 15#4 16 15 0 5).cond = (Fields.mk 15#4 0 0 15 0).cond) ∧
    ∃ t, exec (.halt ⟨15#4, 16, 15, 0, 5⟩) (two 0 0) = .next t ∧ t.halted = true :=
  ⟨by decide, next_of_any (by decide)⟩

/-- The addresses 0, 63, -1 and 64 of 64 words. -/
theorem witness_LoadReadsMemoryIntoTarget :
    (r312 0).wellFormed = true ∧ Executes (r312 0) (two 0 0) ∧
    ¬Outside (two 0 0) (effectiveAddress (r312 0) (two 0 0)) ∧
    ¬Outside (two 60 3) (effectiveAddress (r312 0) (two 60 3)) ∧
    Outside (two 60 3) (effectiveAddress (r312 1) (two 60 3)) ∧
    Outside (two 0 0) (effectiveAddress (r312 (-1)) (two 0 0)) := by
  unfold Executes Outside effectiveAddress secondOperand; decide

/-- The same addresses, for a target that is the pc. -/
theorem witness_StoreWritesTargetIntoMemory :
    (Fields.mk 15#4 15 1 2 0).wellFormed = true ∧ Executes ⟨15#4, 15, 1, 2, 0⟩ (two 0 0) ∧
    ¬Outside (two 0 0) (effectiveAddress ⟨15#4, 15, 1, 2, 0⟩ (two 0 0)) ∧
    ¬Outside (two 60 3) (effectiveAddress (r312 0) (two 60 3)) ∧
    Outside (two 60 3) (effectiveAddress (r312 1) (two 60 3)) ∧
    Outside (two 0 0) (effectiveAddress (r312 (-1)) (two 0 0)) := by
  unfold Executes Outside effectiveAddress secondOperand; decide

theorem witness_AddressClassIsZeroOrPositive :
    Executes (r312 0) (two 0 0) ∧ (two 0 0).faulted = none ∧
    (∃ t, exec (.load (r312 0)) (two 0 0) = .next t ∧ (t.faulted == none && t.cc == 2#4) = true) ∧
    (∃ t, exec (.store (r312 0)) (two 60 3) = .next t ∧ (t.faulted == none && t.cc == 4#4) = true) :=
  ⟨by unfold Executes; decide, by decide, next_of_any (by decide), next_of_any (by decide)⟩

/-- Storing -77 at 11 and loading it back into register 4. -/
theorem witness_StoredWordIsLoadedBack :
    ∃ s t u : State, Executes (r312 4) s ∧ Executes ⟨15#4, 4, 0, 0, 11⟩ t ∧ s.faulted = none ∧ t.faulted = none ∧
      u.faulted = none ∧ exec (.store (r312 4)) s = .next t ∧ exec (.load ⟨15#4, 4, 0, 0, 11⟩) t = .next u ∧
      effectiveAddress ⟨15#4, 4, 0, 0, 11⟩ t = effectiveAddress (r312 4) s :=
  ⟨(two 3 4).setReg 3 0xFFFFFFB3#32, _, _, by unfold Executes; decide, by unfold Executes; decide, by decide,
    by decide, by decide, rfl, rfl, by decide⟩

/-- S9: the stored HALT is the next word fetched. -/
theorem witness_StoreIsSeenByTheNextFetch :
    ∃ s t : State, Running s ∧ s.mem.wf = true ∧ s.mem.read? (val s.pc) = some 0x0BC80005#32 ∧
      decode 0x0BC80005#32 = .instruction (.store ⟨15#4, 2, 0, 0, 5⟩) ∧ Executes ⟨15#4, 2, 0, 0, 5⟩ s ∧
      effectiveAddress ⟨15#4, 2, 0, 0, 5⟩ s = val s.pc + 1 ∧ step s = .next t ∧ t.faulted = none ∧
      decode (s.reg 2) = .instruction (.halt ⟨15#4, 0, 0, 0, 0⟩) :=
  ⟨(ready 4#32 0x0BC80005#32).setReg 2 0x03C00000#32, _, by unfold Running; decide, by decide, by decide, by decide,
    by unfold Executes; decide, by decide, rfl, by decide, by decide⟩

theorem witness_OnlyStoreChangesMemory :
    ∃ t, step (ready 4#32 0x0BFC0014#32) = .next t ∧
      (t.mem.read? 20 != (ready 4#32 0x0BFC0014#32).mem.read? 20) = true :=
  next_of_any (by decide)

theorem witness_HaltStopsTheRun :
    (15 < 16 ∧ 0 < 16 ∧ Executes ⟨15#4, 16, 15, 0, 0⟩ (two 0 0)) ∧
    ¬Executes ⟨2#4, 0, 0, 0, 0⟩ (two 0 0) ∧ (Fields.mk 15#4 15 0 0 0).wellFormed = true := by
  unfold Executes; decide

/-- The clause of HaltStopsTheRun over steps: one that halts, one that does not. -/
theorem witness_HaltStopsTheRun_step :
    (∃ t, step (ready 7#32 0x03C00000#32) = .next t ∧ t.halted = true) ∧
    ∃ t, step ((ready 7#32 0x01000000#32).setCc 2#4) = .next t ∧ (!t.halted) = true :=
  ⟨next_of_any (by decide), next_of_any (by decide)⟩

theorem witness_NoInstructionReadsHalted :
    (∃ t, exec (.halt (r312 0)) (two 0 0) = .next t ∧ (t.halted != (two 0 0).halted) = true) ∧
    ∃ u, exec (.halt (r312 0)) ((two 0 0).setHalted false) = .next u ∧ (u.halted != false) = true :=
  ⟨next_of_any (by decide), next_of_any (by decide)⟩

theorem witness_ZeroRegisterDiscardsWrites :
    WritesTarget (.add (r312 0)) ∧ WritesTarget (.load (r312 0)) ∧ (1 ≤ 1 ∧ 1 ≤ 14) ∧ (1 ≤ 14 ∧ 14 ≤ 14) :=
  ⟨trivial, trivial, by decide, by decide⟩

theorem witness_RegistersHoldWhatIsWritten :
    (∃ t, (blank 64).writeReg? 1 5#32 = some t) ∧ ∃ t, (blank 64).writeReg? 15 1234#32 = some t :=
  ⟨⟨_, rfl⟩, ⟨_, rfl⟩⟩

theorem witness_RegisterIndexOutOfRangeIsFatal :
    decode 0x1FFFFFFF#32 = .instruction (.div ⟨15#4, 15, 15, 15, -1⟩) ∧
    Executes (Instr.add ⟨15#4, 0, 16, 0, 0⟩).fields (two 0 0) ∧ 16 ≤ (Instr.add ⟨15#4, 0, 16, 0, 0⟩).fields.src1 ∧
    Executes ⟨15#4, 16, 15, 15, 0⟩ (two 0 0) ∧ 15 < 16 ∧ 16 ≤ (Fields.mk 15#4 16 15 15 0).target ∧
    ¬Outside (two 0 0) (effectiveAddress ⟨15#4, 16, 15, 15, 0⟩ (two 0 0)) := by
  unfold Executes Outside effectiveAddress secondOperand; decide

theorem witness_FlagIsWrittenByFlagWritersOnly :
    ((∃ t, step (ready 10#32 0x0FC44003#32) = .next t ∧ (t.faulted == none) = true) ∧
      decode 0x0FC44003#32 = .instruction (.add ⟨15#4, 1, 1, 0, 3⟩) ∧
      Executes ⟨15#4, 1, 1, 0, 3⟩ (ready 10#32 0x0FC44003#32) ∧ WritesFlag (.add ⟨15#4, 1, 1, 0, 3⟩)) ∧
    (∃ t, step (ready 7#32 0x03C00000#32) = .next t ∧ (t.cc == 4#4) = true) ∧
    (ready 7#32 0x03C00000#32).cc ≠ 15#4 :=
  ⟨⟨next_of_any (by decide), by decide, by unfold Executes; decide, trivial⟩, next_of_any (by decide), by decide⟩

/-- At the last word of a memory of 64, an executed STORE of register 15: the pc only advances. -/
theorem witness_PcAdvancesByOneUnlessWritten :
    (ready 63#32 0x0BFC0014#32).mem.wf = true ∧
    (∃ t, step (ready 63#32 0x0BFC0014#32) = .next t ∧ (t.faulted == none && t.pc == 64#32) = true) ∧
    decode 0x0BFC0014#32 = .instruction (.store ⟨15#4, 15, 0, 0, 20⟩) ∧ ¬WritesTarget (.store ⟨15#4, 15, 0, 0, 20⟩) :=
  ⟨by decide, next_of_any (by decide), by decide, fun h => h⟩

/-- A jump to 64, the first address past the end, and an indirect jump through word 63. -/
theorem witness_BadJumpTargetFaultsAtTheNextFetch :
    (∃ s t : State, Running s ∧ s.mem.read? (val s.pc) = some 0x0FFC0040#32 ∧
      decode 0x0FFC0040#32 = .instruction (.add ⟨15#4, 15, 0, 0, 64⟩) ∧ WritesTarget (.add ⟨15#4, 15, 0, 0, 64⟩) ∧
      Executes ⟨15#4, 15, 0, 0, 64⟩ s ∧ step s = .next t ∧ Outside t (val t.pc)) ∧
    ∃ s t : State, Running s ∧ s.mem.read? (val s.pc) = some 0x07FC003F#32 ∧
      decode 0x07FC003F#32 = .instruction (.load ⟨15#4, 15, 0, 0, 63⟩) ∧
      WritesTarget (.load ⟨15#4, 15, 0, 0, 63⟩) ∧ Executes ⟨15#4, 15, 0, 0, 63⟩ s ∧
      ¬Outside s (effectiveAddress ⟨15#4, 15, 0, 0, 63⟩ s) ∧ step s = .next t ∧ Outside t (val t.pc) :=
  ⟨⟨ready 10#32 0x0FFC0040#32, _, by unfold Running; decide, by decide, by decide, trivial,
      by unfold Executes; decide, rfl, by unfold Outside; decide⟩,
    ⟨poke (ready 10#32 0x07FC003F#32) 63 0xFFFFFFFF#32, _, by unfold Running; decide, by decide, by decide, trivial,
      by unfold Executes; decide, by unfold Outside effectiveAddress secondOperand; decide, rfl,
      by unfold Outside; decide⟩⟩

theorem witness_IdiomsHaveTheirEffects :
    (two 5 3).cc ≠ 0#4 ∧ Representable (val (two 5 3).pc + 511) ∧ Representable (val (two 5 3).pc + -512) ∧
    4#4 &&& (two 5 3).cc ≠ 0#4 ∧ 2#4 &&& (two 5 3).cc = 0#4 ∧
    Representable (val ((two 5 3).reg 1) - val ((two 5 3).reg 2)) ∧
    ¬Representable (val ((two 0x80000000#32 1).reg 1) - val ((two 0x80000000#32 1).reg 2)) ∧
    Representable (val ((two 5 3).reg 1) - 511) ∧ ¬Representable (val ((two 0x80000000#32 1).reg 1) - 1) ∧
    val ((two 0x80000000#32 1).reg 1) = -2147483648 ∧ val ((two 0x80000001#32 1).reg 1) ≠ -2147483648 ∧
    ¬Outside (two 5 3) (val ((two 5 3).reg 1) + -5) ∧ ¬Outside (two 5 3) (val ((two 5 3).reg 1) + 58) := by
  unfold Representable Outside; decide

theorem witness_MemoryWriteChangesOneWord :
    (blank 64).mem.write? (-1) 5#32 = none ∧ (blank 64).mem.write? 64 5#32 = none ∧
    (((blank 64).mem.write? 0 5#32).bind fun m => m.read? 0) = some 5#32 ∧
    (((blank 64).mem.write? 63 5#32).bind fun m => m.read? 62) = some 0#32 := by decide

theorem witness_EqualMemoriesAreEqualData :
    ∃ m n : Memory, m.wf = true ∧ n.wf = true ∧ m.size = n.size ∧ (∀ a : Int, m.read? a = n.read? a) ∧
      m.cells = [(3, 7#32)] :=
  ⟨{ size := 64, cells := updateCell [] 3 7#32 }, { size := 64, cells := [(3, 7#32)] }, by decide, by decide, rfl,
    fun _ => rfl, rfl⟩

/-- The three sources: F1, L8, S8. -/
theorem witness_AddressFaultHasThreeSources :
    (∃ t, step ((blank 64).setPc 64#32) = .next t ∧
      (t.faulted == some ⟨.addressFault .fetch 64, 64#32, none⟩) = true) ∧
    (∃ t, step (ready 5#32 0x07C403FF#32) = .next t ∧
      (t.faulted == some ⟨.addressFault .load (-1), 5#32, some 0x07C403FF#32⟩) = true) ∧
    ∃ t, step ((ready 4#32 0x0BC44000#32).setReg 1 0xFFFFFFFF#32) = .next t ∧
      (t.faulted == some ⟨.addressFault .store (-1), 4#32, some 0x0BC44000#32⟩) = true :=
  ⟨next_of_any (by decide), next_of_any (by decide), next_of_any (by decide)⟩

/-- F3 and F7: a fault at the decoder and one at a store. -/
theorem witness_FaultLeavesTheTabulatedState :
    (∃ t, step (ready 3#32 0xFFFFFFFF#32) = .next t ∧
      (t.faulted == some ⟨.decodeFault, 3#32, some 0xFFFFFFFF#32⟩) = true) ∧
    ∃ t, step ((ready 3#32 0x0BC44000#32).setReg 1 64#32) = .next t ∧
      (t.faulted == some ⟨.addressFault .store 64, 3#32, some 0x0BC44000#32⟩) = true :=
  ⟨next_of_any (by decide), next_of_any (by decide)⟩

theorem witness_FaultIsFinal :
    ((blank 64).setFaulted (some ⟨.decodeFault, 0#32, some 0x10000000#32⟩)).faulted =
      some ⟨.decodeFault, 0#32, some 0x10000000#32⟩ ∧
    ∃ t, step (ready 7#32 0x00000000#32) = .next t ∧ (t.pc == 8#32) = true :=
  ⟨rfl, next_of_any (by decide)⟩

theorem witness_BlockStepsExactlyWhileRunning :
    Running (blank 1) ∧ ¬Running ((blank 1).setHalted true) ∧
    ¬Running ((blank 1).setFaulted (some ⟨.decodeFault, 0#32, none⟩)) := by unfold Running; decide

/-- A step that stores, and one that faults. -/
theorem witness_StepKeepsTheInvariant :
    (inv (ready 4#32 0x0BFC0014#32) = true ∧
      ∃ t, step (ready 4#32 0x0BFC0014#32) = .next t ∧ (t.mem.read? 20 == some 5#32) = true) ∧
    inv (ready 3#32 0x10000000#32) = true ∧
    ∃ t, step (ready 3#32 0x10000000#32) = .next t ∧ t.faulted.isSome = true :=
  ⟨⟨by decide, next_of_any (by decide)⟩, by decide, next_of_any (by decide)⟩

theorem witness_ResetMeetsTheInvariant :
    (Memory.mk 1 []).wf = true ∧ (Memory.mk 2147483647 [(0, 1#32), (2147483646, 5#32)]).wf = true := by decide

theorem witness_ResetLeavesTheTabulatedState :
    (State.resetWith (Memory.mk 4 [(3, 9#32)])).reg 15 = 0#32 ∧ hostGet (State.resetWith (Memory.mk 4 [(3, 9#32)])) 3 = some 9#32 := by
  decide

theorem witness_RunEntrySetsOnlyPcAndHalted :
    ((blank 64).setHalted true).faulted = none ∧ Outside ((blank 64).setHalted true) (val 64#32) ∧
    Outside ((blank 64).setHalted true) (val 0xFFFFFFFF#32) := by unfold Outside; decide

theorem witness_RunLoopStopsOnlyHaltedOrFaulted :
    Running (runLoop 1 (ready 7#32 0x00000000#32)) ∧ ¬Running (runLoop 1 (ready 7#32 0x03C00000#32)) ∧
    ∃ t, Host.Core.run Sys2Proof.core 1 (ready 7#32 0x03C00000#32) = .next t :=
  ⟨by unfold Running; decide, by unfold Running; decide, _, rfl⟩

/-- From a pc inside memory, and from one outside it on a halted block of one word. -/
theorem witness_PlacedWordRunsNext :
    1 ≤ (blank 1).mem.size ∧ decode 0x0FC40005#32 = .instruction (.add ⟨15#4, 1, 0, 0, 5⟩) ∧
    seen ((((blank 1).setPc 9#32).setHalted true).withFetchWord 32 0x0FC40005) 1 = some (5#32, 4#4, 1#32) := by decide

end Sys2Proof.Tests
end

section
/-! SUPPORT. Register 0 as a target (R22) and the registers after reset (R38). -/

namespace Sys2Proof.Machine

open Sys2Proof.Safety

/-! ### the registers after reset -/

/-- R38: every register has a reset value, and it is 0. -/
@[simp] theorem State.resetWith_reg (m : Memory) (r : Nat) : (State.resetWith m).reg r = 0#32 := by
  unfold State.reg State.resetWith
  split
  · rfl
  · rw [Vector.getElem?_replicate]
    split <;> rfl

/-! ### an instruction with another target -/

/-- An instruction with another target register, every other field kept. -/
def retarget (i : Instr) (k : Nat) : Instr := withFields i { i.fields with target := k }

@[simp] theorem retarget_op (i : Instr) (k : Nat) : (retarget i k).op = i.op := by cases i <;> rfl

@[simp] theorem retarget_cond (i : Instr) (k : Nat) : (retarget i k).fields.cond = i.fields.cond := by cases i <;> rfl

/-- No source read depends on the target field (R96, R97). -/
@[simp] theorem sourceOperands_retarget (i : Instr) (k : Nat) (s : State) :
    sourceOperands (retarget i k).fields s = sourceOperands i.fields s := by cases i <;> rfl

/-- `u` is `t`, or `t` after one more write, to register `k`. -/
def SameButReg (k : Nat) (t u : State) : Prop := u = t ∨ ∃ d, u = t.setReg k d

/-- A write to a register 1 to 14 shows in that register only (R23). -/
theorem SameButReg.frame {k : Nat} {t u : State} (h : SameButReg k t u) (hk : k ≤ 14) :
    t.pc = u.pc ∧ t.cc = u.cc ∧ t.mem = u.mem ∧ t.halted = u.halted ∧ t.faulted = u.faulted := by
  obtain rfl | ⟨d, rfl⟩ := h
  · exact ⟨rfl, rfl, rfl, rfl, rfl⟩
  · exact ⟨(State.reg_setReg_of_ne t k 15 d (by omega)).symm, rfl, rfl, rfl, rfl⟩

/-! ### the actions that write the target -/

/-- The write-back to a register is the write-back to register 0, and the register written. -/
theorem writeBack_retarget (f : Fields) {k : Nat} (hk : k < 16) (pre s : State) (v : Int) (fl : Flag) :
    writeBack { f with target := k } pre s v fl =
      (writeBack { f with target := 0 } pre s v fl).setReg k (pat v) := by
  rw [writeBack_of_lt (f := { f with target := k }) pre s v fl hk,
    writeBack_of_lt (f := { f with target := 0 }) pre s v fl (by decide : 0 < 16)]
  rfl

/-- The load into a register is the load into register 0, and the register written where memory was read. -/
theorem loadWord_retarget (f : Fields) {k : Nat} (hk : k < 16) (pre s : State) (ea : Int) (fl : Flag) :
    SameButReg k (loadWord { f with target := 0 } pre s ea fl) (loadWord { f with target := k } pre s ea fl) := by
  cases hd : s.mem.read? ea with
  | none =>
    left
    rw [loadWord_of_outside pre s fl hd, loadWord_of_outside pre s fl hd]
  | some d =>
    right
    refine ⟨d, ?_⟩
    rw [loadWord_of_read (f := { f with target := k }) pre s fl hd hk,
      loadWord_of_read (f := { f with target := 0 }) pre s fl hd (by decide : 0 < 16)]
    rfl

/-- A write-back to register 0 leaves every register alone (R22). -/
theorem writeBack_zero_reg (f : Fields) (pre s : State) (v : Int) (fl : Flag) (r : Nat) :
    (writeBack { f with target := 0 } pre s v fl).reg r = s.reg r := by
  rw [writeBack_of_lt (f := { f with target := 0 }) pre s v fl (by decide : 0 < 16)]
  rfl

/-- A load into register 0 leaves every register alone (R22). -/
theorem loadWord_zero_reg (f : Fields) (pre s : State) (ea : Int) (fl : Flag) (r : Nat) :
    (loadWord { f with target := 0 } pre s ea fl).reg r = s.reg r := by
  cases hd : s.mem.read? ea with
  | none => rw [loadWord_of_outside pre s fl hd, State.raise_reg]
  | some d =>
    rw [loadWord_of_read (f := { f with target := 0 }) pre s fl hd (by decide : 0 < 16)]
    rfl

/-- The action of an instruction that writes its target, for target 0 and another target. -/
theorem actionOf_retarget {i : Instr} (hi : WritesTarget i) {k : Nat} (hk : k < 16) (pre s : State) (v : Int)
    (fl : Flag) :
    SameButReg k (actionOf (retarget i 0) pre s v fl) (actionOf (retarget i k) pre s v fl) := by
  cases i with
  | halt f => exact hi.elim
  | store f => exact hi.elim
  | load f => exact loadWord_retarget f hk pre s v fl
  | add f => exact .inr ⟨_, writeBack_retarget f hk pre s v fl⟩
  | sub f => exact .inr ⟨_, writeBack_retarget f hk pre s v fl⟩
  | mul f => exact .inr ⟨_, writeBack_retarget f hk pre s v fl⟩
  | div f => exact .inr ⟨_, writeBack_retarget f hk pre s v fl⟩

/-- The action of an instruction that writes its target leaves every register alone where that is register 0. -/
theorem actionOf_retarget_zero_reg {i : Instr} (hi : WritesTarget i) (pre s : State) (v : Int) (fl : Flag) (r : Nat) :
    (actionOf (retarget i 0) pre s v fl).reg r = s.reg r := by
  cases i with
  | halt f => exact hi.elim
  | store f => exact hi.elim
  | load f => exact loadWord_zero_reg f pre s v fl r
  | add f => exact writeBack_zero_reg f pre s v fl r
  | sub f => exact writeBack_zero_reg f pre s v fl r
  | mul f => exact writeBack_zero_reg f pre s v fl r
  | div f => exact writeBack_zero_reg f pre s v fl r

/-! ### the whole instruction -/

/-- An executed instruction with a source index that names no register (R165, R167). -/
theorem exec_of_no_source {i : Instr} {s : State} (hc : conditionMet i.fields.cond s.cc = true)
    (hs : sourceOperands i.fields s = none) : exec i s = .next (s.raise .registerIndexFault s) := by
  rw [exec_eq, if_pos hc, executeStage_of_no_source hs]

/-- An instruction that writes its target does the same for target 0 as for another target, but for the write. -/
theorem exec_retarget {i : Instr} (hi : WritesTarget i) {k : Nat} (hk : k < 16) (s : State) :
    ∃ t u, exec (retarget i 0) s = .next t ∧ exec (retarget i k) s = .next u ∧ LowRegsUnchanged s t ∧
      SameButReg k t u := by
  have advance_low : LowRegsUnchanged s s.advancePc := fun r hr => State.advancePc_reg_of_ne s r (by omega)
  cases hc : conditionMet i.fields.cond s.cc with
  | false =>
    exact ⟨_, _, exec_of_skipped (by simp [hc]), exec_of_skipped (by simp [hc]), advance_low, .inl rfl⟩
  | true =>
    cases hs : sourceOperands i.fields s with
    | none =>
      exact ⟨_, _, exec_of_no_source (by simp [hc]) (by simp [hs]), exec_of_no_source (by simp [hc]) (by simp [hs]),
        fun r _ => State.raise_reg s r s .registerIndexFault, .inl rfl⟩
    | some p =>
      obtain ⟨l, r⟩ := p
      obtain ⟨v, fl, ha⟩ := alu_op_isSome i l r
      have exec_target (j : Nat) : exec (retarget i j) s = .next (actionOf (retarget i j) s s.advancePc v fl) :=
        exec_of_alu (l := l) (r := r) (by simp [hc]) (by simp [hs]) (by simp [ha])
      exact ⟨_, _, exec_target 0, exec_target k,
        fun q hq => (actionOf_retarget_zero_reg hi s s.advancePc v fl q).trans (advance_low q hq),
        actionOf_retarget hi hk s s.advancePc v fl⟩

end Sys2Proof.Machine

namespace Sys2Proof.Proofs

open Sys2Proof.Machine Sys2Proof.Safety

/-- Settles O31: target 0 and a target 1 to 14 differ in that one register write, which the pc is not part of. -/
theorem zeroRegisterDiscardsWrites : Obligations.ZeroRegisterDiscardsWrites := by
  refine ⟨fun s vs => State.reg_zero _, fun s v => State.writeReg?_of_lt s 0 v (by decide), ?_⟩
  intro i s k hi _ hk
  obtain ⟨t, u, ht, hu, hlow, hsame⟩ := exec_retarget hi (show k < 16 by omega) s
  exact ⟨t, u, ht, hu, hlow, hsame.frame hk⟩

/-- Settles O46: the registers by `State.resetWith_reg`, the other fields as reset sets them, and the entry of
`run` on a block without a fault record. -/
theorem resetLeavesTheTabulatedState : Obligations.ResetLeavesTheTabulatedState := by
  intro m
  refine ⟨fun r hr => ?_, State.resetWith_reg m 15, rfl, rfl, rfl, rfl, fun a => ⟨_, rfl, State.setPc_pc _ a⟩⟩
  rw [State.readReg?_of_lt _ _ hr, State.resetWith_reg]

end Sys2Proof.Proofs
end

section
/-! SUPPORT. What memory reads as after a write (R53). -/

namespace Sys2Proof.Machine

/-! ### a read after a write -/

/-- Outside memory, as the two comparisons R52 and R53 name. -/
theorem Memory.inRange_eq_false_iff (m : Memory) (a : Int) :
    m.inRange a = false ↔ a < 0 ∨ (m.size : Int) ≤ a := by
  rw [← Bool.not_eq_true, Memory.inRange_iff]
  omega

/-- A write leaves the bounds alone. -/
theorem Memory.inRange_of_write? {m m' : Memory} {a : Int} {w : Word} (h : m.write? a w = some m') (b : Int) :
    m'.inRange b = m.inRange b := by
  unfold Memory.inRange
  rw [Memory.write?_size h]

/-- The word written is the word read back. -/
theorem Memory.read?_write?_same {m m' : Memory} {a : Int} {w : Word} (h : m.write? a w = some m') :
    m'.read? a = some w := by
  have inRange_after := Memory.inRange_of_write? h a
  obtain ⟨ha, rfl⟩ := Memory.write?_eq_some h
  rw [Memory.read?_of_inRange (inRange_after.trans ha), lookupCell_updateCell_same]

/-- A write leaves the read at every other address alone, inside memory and outside it. -/
theorem Memory.read?_write?_of_ne {m m' : Memory} {a b : Int} {w : Word} (h : m.write? a w = some m') (hb : b ≠ a) :
    m'.read? b = m.read? b := by
  have inRange_after := Memory.inRange_of_write? h b
  obtain ⟨ha, rfl⟩ := Memory.write?_eq_some h
  cases hr : m.inRange b with
  | false => rw [Memory.read?_eq_none.mpr hr, Memory.read?_eq_none.mpr (inRange_after.trans hr)]
  | true =>
    rw [Memory.inRange_iff] at ha
    have other_index : b.toNat ≠ a.toNat := by
      have := (Memory.inRange_iff m b).mp hr
      omega
    rw [Memory.read?_of_inRange hr, Memory.read?_of_inRange (inRange_after.trans hr),
      lookupCell_updateCell_of_ne _ _ other_index]

end Sys2Proof.Machine

namespace Sys2Proof.Proofs

open Sys2Proof.Machine Sys2Proof.Safety

/-- Settles O38: the bounds decide whether the write answers, and the two read-after-write rules say what it changes. -/
theorem memoryWriteChangesOneWord : Obligations.MemoryWriteChangesOneWord := by
  intro m a v
  rw [← Memory.inRange_eq_false_iff]
  refine ⟨Memory.write?_eq_none.mpr, fun inside => ?_⟩
  have hw := Memory.write?_of_inRange v (Bool.eq_true_of_not_eq_false inside)
  exact ⟨_, hw, Memory.write?_size hw, Memory.read?_write?_same hw, fun _ hb => Memory.read?_write?_of_ne hw hb⟩

end Sys2Proof.Proofs
end

section
/-! SUPPORT. Decoding said once in both directions: which words are which instruction, which are none, and
where each field lies (R72, R76 to R78). -/

namespace Sys2Proof

/-! ### the bits of a word -/

/-- A slice is the number of the bits it names (R7). -/
theorem slice_eq_extractLsb' (w : Word) (hi lo : Nat) :
    slice w hi lo = (w.extractLsb' lo (hi - lo + 1)).toNat := (BitVec.extractLsb'_toNat ..).symm

/-- Bit 31 as a one-bit slice (R72). -/
theorem slice_31_eq_zero_iff (w : Word) : slice w 31 31 = 0 ↔ w.getLsbD 31 = false := by
  rw [slice_eq, ← BitVec.testBit_toNat, Nat.testBit_eq_decide_div_mod_eq, decide_eq_false_iff_not]
  omega

/-- The words with bit 31 set are the negative register values (R7). -/
theorem val_neg_iff (w : Word) : val w < 0 ↔ w.getLsbD 31 = true := by
  have sign_bit : w.getLsbD 31 = decide (val w < 0) := (BitVec.msb_eq_getLsbD_last w).symm.trans BitVec.msb_eq_toInt
  rw [sign_bit, decide_eq_true_eq]

/-- `sext_10` of the number of ten bits is their value in two's complement (R8). -/
theorem sext10_toNat (b : BitVec 10) : sext10 b.toNat = b.toInt := by
  rw [BitVec.toInt_eq_toNat_cond, sext10]
  split <;> split <;> omega

/-- The operand fields of a word as its bits (R72). -/
theorem fieldsOf_eq_bits (w : Word) :
    fieldsOf w =
      { cond := w.extractLsb' 22 4
        target := (w.extractLsb' 18 4).toNat
        src1 := (w.extractLsb' 14 4).toNat
        src2 := (w.extractLsb' 10 4).toNat
        offset := (w.extractLsb' 0 10).toInt } := by
  simp only [fieldsOf, slice_eq_extractLsb', sext10_toNat, BitVec.ofNat_toNat, BitVec.setWidth_eq]

/-! ### which words decode -/

/-- The converse of `decode_inv`: bit 31 zero, the operation number and the fields determine the instruction. -/
theorem decode_of_slices {w : Word} {i : Instr} (h31 : slice w 31 31 = 0) (hop : i.op.number = slice w 30 26)
    (hf : i.fields = fieldsOf w) : decode w = .instruction i := by
  unfold decode
  rw [if_neg (not_not_intro h31), ← hop, opOfNumber_number, ← hf]
  cases i <;> rfl

/-- The operation numbers are 0 to 3 and 5 to 7, with any fields (R74). -/
theorem exists_instr_iff (n : Nat) (f : Fields) :
    (∃ i : Instr, i.op.number = n ∧ i.fields = f) ↔ n ≠ 4 ∧ n < 8 := by
  constructor
  · rintro ⟨i, rfl, -⟩
    cases i <;> simp [Instr.op, OpCode.number]
  · rintro ⟨h4, h8⟩
    interval_cases n
    · exact ⟨.halt f, rfl, rfl⟩
    · exact ⟨.load f, rfl, rfl⟩
    · exact ⟨.store f, rfl, rfl⟩
    · exact ⟨.add f, rfl, rfl⟩
    · exact absurd rfl h4
    · exact ⟨.sub f, rfl, rfl⟩
    · exact ⟨.mul f, rfl, rfl⟩
    · exact ⟨.div f, rfl, rfl⟩

/-- The words that decode: bit 31 zero and an assigned operation number (R76). -/
theorem exists_decode_instruction_iff (w : Word) :
    (∃ i, decode w = .instruction i) ↔ slice w 31 31 = 0 ∧ slice w 30 26 ≠ 4 ∧ slice w 30 26 < 8 := by
  rw [← exists_instr_iff (slice w 30 26) (fieldsOf w)]
  constructor
  · rintro ⟨i, hi⟩
    obtain ⟨h31, hop, hf⟩ := decode_inv hi
    exact ⟨h31, i, hop, hf⟩
  · rintro ⟨h31, i, hop, hf⟩
    exact ⟨i, decode_of_slices h31 hop hf⟩

/-- A word is rejected exactly when it is no instruction (R76). -/
theorem exists_decode_rejected_iff (w : Word) :
    (∃ e, decode w = .rejected e) ↔ ¬∃ i, decode w = .instruction i := by
  cases decode w <;> simp

/-! ### the slices of an encoding -/

/-- Each slice of an encoding is the number encoded there (R72, R77). -/
theorem slices_encode {i : Instr} (hi : i.wellFormed = true) :
    slice (encode i) 31 31 = 0 ∧ slice (encode i) 30 26 = i.op.number ∧
      slice (encode i) 25 22 = i.fields.cond.toNat ∧ slice (encode i) 21 18 = i.fields.target ∧
      slice (encode i) 17 14 = i.fields.src1 ∧ slice (encode i) 13 10 = i.fields.src2 ∧
      slice (encode i) 9 0 = (i.fields.offset % 1024).toNat := by
  have hn := number_lt i
  obtain ⟨ht, h1, h2, _, _⟩ := (Fields.wellFormed_iff i.fields).mp hi
  have hc : i.fields.cond.toNat < 16 := i.fields.cond.isLt
  simp only [slice_eq, encode_toNat hi]
  omega

/-- Decoding is a left inverse of encoding (R77). -/
theorem decode_encode {i : Instr} (hi : i.wellFormed = true) : decode (encode i) = .instruction i := by
  obtain ⟨_, _, _, hlo, hhi⟩ := (Fields.wellFormed_iff i.fields).mp hi
  obtain ⟨h31, hop, hcond, htarget, hsrc1, hsrc2, hoffset⟩ := slices_encode hi
  have fields_back : fieldsOf (encode i) = i.fields := by
    rw [fieldsOf, hcond, htarget, hsrc1, hsrc2, hoffset, sext10_emod hlo hhi, BitVec.ofNat_toNat, BitVec.setWidth_eq]
  exact decode_of_slices h31 hop.symm fields_back.symm

end Sys2Proof

namespace Sys2Proof.Proofs

open Sys2Proof.Machine Sys2Proof.Safety

/-- Settles O1: the round trip, and the formula, which is the same sum as the word. -/
theorem decodeAndEncodeAgree : Obligations.DecodeAndEncodeAgree := fun _ hi =>
  ⟨decode_encode hi, (encode_toNat hi).trans (encodeNat_eq_sum hi).symm⟩

/-- Settles O4: what a word that decodes is (`decode_inv`), with its slices as bits. -/
theorem decodedFieldsAreTheWordsBits : Obligations.DecodedFieldsAreTheWordsBits := by
  intro w i h
  obtain ⟨h31, hop, hf⟩ := decode_inv h
  have in_range : i.wellFormed = true := by
    rw [Instr.wellFormed, hf]
    exact fieldsOf_wellFormed w
  rw [hf, fieldsOf_eq_bits]
  exact ⟨(slice_31_eq_zero_iff w).mp h31, hop.trans (slice_eq_extractLsb' w 30 26), rfl, rfl, rfl, rfl, rfl, in_range⟩

end Sys2Proof.Proofs
end

section
/-! SUPPORT. Only a rejected word leaves a `decodeFault` record (R163). -/

namespace Sys2Proof.Machine

/-- The marker is not set, or its record is of another kind than `decodeFault`. -/
def NoDecodeFault (s : State) : Prop := ∀ r, s.faulted = some r → r.kind ≠ .decodeFault

/-- A block that takes steps has no record at all (R32). -/
theorem NoDecodeFault.of_faulted_eq_none {s : State} (h : s.faulted = none) : NoDecodeFault s := by
  intro r hr
  rw [h] at hr
  cases hr

/-- Raising a fault of another kind leaves that kind in the record (R160). -/
theorem NoDecodeFault.raise (pre s : State) {k : FaultKind} (hk : k ≠ .decodeFault) :
    NoDecodeFault (pre.raise k s) := by
  rintro r ⟨⟩
  exact hk

/-- Write-back raises nothing but a register index fault. -/
theorem NoDecodeFault.writeBack {s : State} (h : NoDecodeFault s) (f : Fields) (pre : State) (v : Int) (fl : Flag) :
    NoDecodeFault (writeBack f pre s v fl) := by
  rcases Nat.lt_or_ge f.target 16 with ht | ht
  · rw [writeBack_of_lt pre s v fl ht]
    exact h
  · rw [writeBack_of_ge pre s v fl ht]
    exact raise pre s (by decide)

/-- A load raises nothing but an address fault or a register index fault. -/
theorem NoDecodeFault.loadWord {s : State} (h : NoDecodeFault s) (f : Fields) (pre : State) (ea : Int) (fl : Flag) :
    NoDecodeFault (loadWord f pre s ea fl) := by
  cases hd : s.mem.read? ea with
  | none =>
    rw [loadWord_of_outside pre s fl hd]
    exact raise pre s FaultKind.noConfusion
  | some d =>
    rcases Nat.lt_or_ge f.target 16 with ht | ht
    · rw [loadWord_of_read pre s fl hd ht]
      exact h
    · rw [loadWord_of_ge pre s fl hd ht]
      exact raise pre s (by decide)

/-- A store raises nothing but a register index fault or an address fault. -/
theorem NoDecodeFault.storeWord {s : State} (h : NoDecodeFault s) (f : Fields) (pre : State) (ea : Int) (fl : Flag) :
    NoDecodeFault (storeWord f pre s ea fl) := by
  rcases Nat.lt_or_ge f.target 16 with ht | ht
  · cases hm : s.mem.write? ea (s.reg f.target) with
    | none =>
      rw [storeWord_of_outside pre s fl ht hm]
      exact raise pre s FaultKind.noConfusion
    | some m =>
      rw [storeWord_of_write pre s fl ht hm]
      exact h
  · rw [storeWord_of_ge pre s ea fl ht]
    exact raise pre s (by decide)

/-- No action raises a decode fault (R100). -/
theorem NoDecodeFault.actionOf {s : State} (h : NoDecodeFault s) (i : Instr) (pre : State) (v : Int) (fl : Flag) :
    NoDecodeFault (actionOf i pre s v fl) := by
  cases i with
  | halt f => exact h
  | load f => exact h.loadWord f pre v fl
  | store f => exact h.storeWord f pre v fl
  | add f => exact h.writeBack f pre v fl
  | sub f => exact h.writeBack f pre v fl
  | mul f => exact h.writeBack f pre v fl
  | div f => exact h.writeBack f pre v fl

/-- No instruction raises a decode fault: decoding is over when it runs (R90). -/
theorem NoDecodeFault.exec {i : Instr} {s t : State} (hs : NoDecodeFault s) (h : exec i s = .next t) :
    NoDecodeFault t := by
  have advanced : NoDecodeFault s.advancePc := hs
  rcases exec_cases h with ⟨-, rfl⟩ | ⟨hc, -⟩
  · exact advanced
  · rcases exec_executed_cases hc h with ⟨-, rfl⟩ | ⟨l, r, v, fl, -, -, rfl⟩
    · exact raise s s (by decide)
    · exact advanced.actionOf i s v fl

/-- A step that leaves a `decodeFault` record has fetched a rejected word (R163). -/
theorem step_decodeFault_inv {s t : State} {r : FaultRecord} (h : step s = .next t) (hr : t.faulted = some r)
    (hk : r.kind = .decodeFault) : ∃ w e, s.fetch? = some w ∧ decode w = .rejected e := by
  obtain ⟨-, running, ⟨-, rfl⟩ | ⟨w, e, hw, he, -⟩ | ⟨w, i, -, -, hi⟩⟩ := step_cases h
  · exact absurd hk (NoDecodeFault.raise s s FaultKind.noConfusion r hr)
  · exact ⟨w, e, hw, he⟩
  · exact absurd hk ((NoDecodeFault.of_faulted_eq_none running).exec hi r hr)

/-- The step of a running block that fetches a rejected word raises DecodeFault and does nothing else (R163). -/
theorem step_of_rejected {s : State} {w : Word} {e : DecodeError} (hs : Safety.Running s) (hw : s.fetch? = some w)
    (he : decode w = .rejected e) : step s = .next (s.raise .decodeFault s) := by
  obtain ⟨hh, hf⟩ := hs
  rw [step_of_running hh hf, cycle_of_rejected hw he]

/-- A fault raised before anything else is done leaves all but the marker as it was (R167). -/
theorem faultsWith_raise_self (s : State) (k : FaultKind) : Safety.FaultsWith s (s.raise k s) k s.pc :=
  ⟨rfl, rfl, fun _ _ => rfl, rfl, rfl, rfl, fun _ => rfl⟩

end Sys2Proof.Machine

namespace Sys2Proof.Proofs

open Sys2Proof.Machine Sys2Proof.Safety

/-- The illegal words of R78. -/
theorem decode_rejected_iff (w : Word) :
    (∃ e, decode w = .rejected e) ↔
      val w < 0 ∨ (w.extractLsb' 26 5).toNat = 4 ∨ 8 ≤ (w.extractLsb' 26 5).toNat := by
  have op_bits : slice w 30 26 = (w.extractLsb' 26 5).toNat := slice_eq_extractLsb' w 30 26
  rw [exists_decode_rejected_iff, exists_decode_instruction_iff, slice_31_eq_zero_iff, val_neg_iff, op_bits,
    not_and_or, not_and_or, Bool.not_eq_false, not_not, Nat.not_lt]

/-- Settles O3: the illegal words, the step that fetches one, no other source of the fault, and HALT's action,
which has no use for the target. -/
theorem illegalWordsRaiseDecodeFault : Obligations.IllegalWordsRaiseDecodeFault := by
  refine ⟨decode_rejected_iff, ?_, fun _ _ _ => step_decodeFault_inv, fun _ _ _ => rfl⟩
  rintro s w hs hw ⟨e, he⟩
  exact ⟨_, step_of_rejected hs hw he, faultsWith_raise_self s .decodeFault⟩

end Sys2Proof.Proofs
end

section
/-! SUPPORT. The stages of a step before the action: the fetch (R91), the condition test and the skip (R94,
R95), and the source operands (R96, R97). -/

namespace Sys2Proof.Machine

open Sys2Proof.Safety

/-! ### the fetch -/

/-- Outside memory, as the bounds contract has it (R52). -/
theorem outside_iff_inRange_eq_false (s : State) (a : Int) : Outside s a ↔ s.mem.inRange a = false :=
  (Memory.inRange_eq_false_iff s.mem a).symm

/-- A fetch fails exactly where the pc is outside memory (R91). -/
theorem State.fetch?_eq_none_iff (s : State) : s.fetch? = none ↔ Outside s (val s.pc) :=
  Memory.read?_eq_none.trans (outside_iff_inRange_eq_false s (val s.pc)).symm

/-- The step of a running block whose fetch fails raises AddressFault and does nothing else (R91). -/
theorem step_of_no_fetch {s : State} (hs : Running s) (hw : s.fetch? = none) :
    step s = .next (s.raise (.addressFault .fetch (val s.pc)) s) := by
  obtain ⟨hh, hf⟩ := hs
  rw [step_of_running hh hf, cycle_of_no_fetch hw]

/-! ### the condition test -/

/-- An instruction whose test passes leaves what its execute stage leaves (R94). -/
theorem exec_of_met {i : Instr} {s : State} (h : conditionMet i.fields.cond s.cc = true) :
    exec i s = .next (executed i s) := by
  rw [exec_eq, if_pos h, executed]

/-- Mask ALWAYS passes under every flag that some mask passes under (R28). -/
theorem conditionMet_always {c cc : BitVec 4} (h : conditionMet c cc = true) : conditionMet ccAlways cc = true := by
  rw [conditionMet_iff] at h ⊢
  intro always_and
  have cc_zero : cc = 0#4 := BitVec.allOnes_and.symm.trans always_and
  exact h (by rw [cc_zero, BitVec.and_zero])

/-- Mask NEVER passes under no flag (R28). -/
theorem conditionMet_never (cc : BitVec 4) : conditionMet maskNever cc = false :=
  (conditionMet_eq_false _ _).mpr BitVec.zero_and

/-- An instruction with another mask, every other field kept. -/
def remask (i : Instr) (c : BitVec 4) : Instr := withFields i { i.fields with cond := c }

@[simp] theorem remask_cond (i : Instr) (c : BitVec 4) : (remask i c).fields.cond = c := by cases i <;> rfl

/-- No stage after the test reads the mask (R98). -/
@[simp] theorem executed_remask (i : Instr) (c : BitVec 4) (s : State) : executed (remask i c) s = executed i s := by
  cases i <;> rfl

/-- The mask acts through the test only: two masks with one outcome make one instruction (R94). -/
theorem exec_remask {i : Instr} {c : BitVec 4} {s : State}
    (h : conditionMet c s.cc = conditionMet i.fields.cond s.cc) : exec (remask i c) s = exec i s := by
  cases hc : conditionMet i.fields.cond s.cc with
  | true => rw [exec_of_met hc, exec_of_met (by rw [remask_cond, h, hc]), executed_remask]
  | false => rw [exec_of_skipped hc, exec_of_skipped (by rw [remask_cond, h, hc])]

/-! ### the pc advance -/

/-- The pc advance shows in no other register (R95). -/
theorem advancePc_lowRegsUnchanged (s : State) : LowRegsUnchanged s s.advancePc :=
  fun r hr => State.advancePc_reg_of_ne s r (Nat.ne_of_lt hr)

/-- The pc advance leaves memory alone (R95). -/
theorem advancePc_memUnchanged (s : State) : MemUnchanged s s.advancePc := ⟨rfl, fun _ => rfl⟩

/-! ### the operands -/

/-- The sources of a well-formed instruction are registers, read before the pc advance (R96, R97). -/
theorem sourceOperands_of_wellFormed {f : Fields} (hf : f.wellFormed = true) (s : State) :
    sourceOperands f s = some (val (s.reg f.src1), secondOperand f s) := by
  obtain ⟨-, h1, h2, -, -⟩ := (Fields.wellFormed_iff f).mp hf
  exact sourceOperands_of_lt s h1 h2

/-- The second operand is a register value and an offset, so it is at most 512 below or 511 above one (R97). -/
theorem secondOperand_range {f : Fields} (hf : f.wellFormed = true) (s : State) :
    -2147484160 ≤ secondOperand f s ∧ secondOperand f s ≤ 2147484158 := by
  obtain ⟨-, -, -, hlo, hhi⟩ := (Fields.wellFormed_iff f).mp hf
  have hreg := val_range (s.reg f.src2)
  unfold secondOperand
  omega

/-- Register 0 as a source is the integer 0 (R22). -/
theorem val_reg_zero (s : State) : val (s.reg 0) = 0 := rfl

end Sys2Proof.Machine

namespace Sys2Proof.Proofs

open Sys2Proof.Machine Sys2Proof.Safety

/-- Settles O8: the test decides between the execute stage and the skip, and ALWAYS and NEVER have the outcome
of the mask they replace. -/
theorem conditionTestDecidesExecution : Obligations.ConditionTestDecidesExecution := by
  intro i s
  rw [← conditionMet_iff, ← conditionMet_eq_false]
  refine ⟨fun met => ⟨exec_of_met met, ?_⟩, fun skipped => ⟨exec_of_skipped skipped, ?_⟩⟩
  · exact (exec_remask ((conditionMet_always met).trans met.symm)).symm
  · exact (exec_remask ((conditionMet_never s.cc).trans skipped.symm)).symm

/-- Settles O10: a skip is the pc advance, and the advance is its own frame. -/
theorem skippedInstructionOnlyAdvancesPc : Obligations.SkippedInstructionOnlyAdvancesPc := fun _ s h =>
  ⟨s.advancePc, exec_of_skipped ((conditionMet_eq_false _ _).mpr h), State.advancePc_pc s,
    advancePc_lowRegsUnchanged s, State.advancePc_cc s, State.advancePc_halted s, State.advancePc_faulted s,
    advancePc_memUnchanged s⟩

/-- Settles O11: the execute stage reads its operands in the state before the advance, and the ALU has the
operation of every instruction. -/
theorem operandsAreReadBeforeTheAdvance : Obligations.OperandsAreReadBeforeTheAdvance := by
  intro i s hi hc
  obtain ⟨v, fl, ha⟩ := alu_op_isSome i (val (s.reg i.fields.src1)) (secondOperand i.fields s)
  have runs := exec_of_alu ((conditionMet_iff _ _).mpr hc) (sourceOperands_of_wellFormed hi s) ha
  refine ⟨_, _, v, fl, rfl, rfl, ha, runs, ?_, ?_, ?_, ?_, secondOperand_range hi s⟩
  · intro h0
    rw [h0, val_reg_zero]
  · intro h15
    rw [h15, State.pc_eq_reg]
  · intro h0
    rw [h0, val_reg_zero, Int.zero_add]
  · intro h15
    rw [h15, State.pc_eq_reg]

/-- Settles O7: the fetch fails exactly outside memory, and then the step raises before anything is done. -/
theorem fetchOutsideMemoryFaults : Obligations.FetchOutsideMemoryFaults := by
  refine ⟨fun s hs outside => ?_, fun s inside => ?_⟩
  · have no_word := s.fetch?_eq_none_iff.mpr outside
    exact ⟨_, step_of_no_fetch hs no_word, faultsWith_raise_self s _, no_word⟩
  · obtain ⟨w, hw⟩ := Option.ne_none_iff_exists'.mp (mt s.fetch?_eq_none_iff.mp inside)
    exact ⟨w, hw, hw⟩

end Sys2Proof.Proofs
end

section
/-! SUPPORT. The ALU alone: the class of a result (R113), the range test (R115) and division (R112, R114). -/

namespace Sys2Proof.Machine

open Sys2Proof.Safety

/-! ### flags and classes -/

theorem classOf_eq_z_iff (e : Int) : classOf e = .z ↔ e = 0 := by grind [classOf]

theorem classOf_eq_m_iff (e : Int) : classOf e = .m ↔ e < 0 := by grind [classOf]

theorem classOf_eq_p_iff (e : Int) : classOf e = .p ↔ 0 < e := by grind [classOf]

/-- The class in the bits of R28. -/
theorem classOf_bits (e : Int) : (classOf e).bits = classBits e := by
  unfold classOf classBits
  split
  · rfl
  · split <;> rfl

/-- V is the flag of bit 8 and no other is (R28). -/
theorem Flag.bits_eq_v_iff (fl : Flag) : fl.bits = 8#4 ↔ fl = .v := by cases fl <;> decide

/-! ### the range test -/

/-- The range test is the range of a register value (R21, R115). -/
theorem fits_iff_representable (e : Int) : fits e = true ↔ Representable e := fits_iff e

theorem rangeTested_of_representable {e : Int} (h : Representable e) : rangeTested e = (e, classOf e) :=
  rangeTested_of_fits ((fits_iff_representable e).mpr h)

theorem rangeTested_of_not_representable {e : Int} (h : ¬Representable e) : rangeTested e = (0, .v) :=
  rangeTested_of_not_fits (Bool.eq_false_iff.mpr (mt (fits_iff_representable e).mp h))

/-- What an ALU pair may be: an error is 0 with V, and any other result comes with its class (R113). -/
def Classified (r : Int × Flag) : Prop := r = (0, .v) ∨ r.2 = classOf r.1

theorem rangeTested_classified (e : Int) : Classified (rangeTested e) := by
  by_cases h : Representable e
  · rw [rangeTested_of_representable h]
    exact .inr rfl
  · exact .inl (rangeTested_of_not_representable h)

/-! ### the operations -/

/-- Division by zero is an answer of the ALU (R114). -/
theorem alu_div_zero (a : Int) : alu .div a 0 = some (0, .v) := rfl

/-- Division by anything else range-tests the floor of the rational quotient (R7, R112). -/
theorem alu_div_of_ne (a : Int) {b : Int} (hb : b ≠ 0) : alu .div a b = some (rangeTested ⌊(a : ℚ) / (b : ℚ)⌋) := by
  rw [alu, if_neg hb, fdiv_eq_floor a hb]

/-- Every answer of the ALU is classified. -/
theorem alu_classified {op : OpCode} {a b : Int} {r : Int × Flag} (h : alu op a b = some r) : Classified r := by
  cases op with
  | add => cases h; exact rangeTested_classified _
  | sub => cases h; exact rangeTested_classified _
  | mul => cases h; exact rangeTested_classified _
  | div =>
    by_cases hb : b = 0
    · rw [hb, alu_div_zero] at h
      cases h
      exact .inl rfl
    · rw [alu_div_of_ne a hb] at h
      cases h
      exact rangeTested_classified _
  | load => cases h; exact .inr rfl
  | store => cases h; exact .inr rfl
  | halt => cases h; exact .inr rfl
  | other n => cases h

/-! ### the quotients that are no register value -/

/-- A positive divisor takes no dividend of at most 2^31 in size past 2^31, and reaches it only from itself. -/
theorem ediv_range {a b : Int} (hb : 0 < b) (hlo : -2147483648 ≤ a) (hhi : a ≤ 2147483648) :
    -2147483648 ≤ a / b ∧ a / b ≤ 2147483648 ∧ (a / b = 2147483648 → a = 2147483648 ∧ b = 1) := by
  have le_size : |a / b| ≤ 2147483648 := (Int.abs_ediv_le_abs a b).trans (abs_le.mpr ⟨hlo, hhi⟩)
  obtain ⟨qlo, qhi⟩ := abs_le.mp le_size
  refine ⟨qlo, qhi, fun hq => ?_⟩
  have quotient_mul_le := Int.ediv_mul_le a hb.ne'
  rw [hq] at quotient_mul_le
  omega

/-- The one quotient of a register value that overflows is that of WMIN by -1 (R115). -/
theorem not_representable_floor_div_iff {a b : Int} (ha : Representable a) (hb : b ≠ 0) :
    ¬Representable ⌊(a : ℚ) / (b : ℚ)⌋ ↔ a = -2147483648 ∧ b = -1 := by
  rw [← fdiv_eq_floor a hb]
  obtain ⟨hlo, hhi⟩ := ha
  rcases lt_or_gt_of_ne hb with neg | pos
  · rw [← Int.neg_fdiv_neg, Int.fdiv_eq_ediv_of_nonneg _ (by omega)]
    obtain ⟨qlo, qhi, overflow⟩ := ediv_range (a := -a) (b := -b) (by omega) (by omega) (by omega)
    constructor
    · intro outside
      obtain ⟨ha, hb⟩ := overflow (by unfold Representable at outside; omega)
      omega
    · rintro ⟨rfl, rfl⟩
      unfold Representable
      decide
  · rw [Int.fdiv_eq_ediv_of_nonneg _ pos.le]
    obtain ⟨qlo, qhi, overflow⟩ := ediv_range pos hlo (by omega)
    unfold Representable
    omega

/-- Flag V of a range-tested quotient of a register value: WMIN by -1 only (R114, R115). -/
theorem rangeTested_floor_div_flag_ne_v {a b : Int} (ha : Representable a) (hb : b ≠ 0)
    (h : ¬(a = -2147483648 ∧ b = -1)) : (rangeTested ⌊(a : ℚ) / (b : ℚ)⌋).2 ≠ .v := by
  rw [rangeTested_of_representable (not_not.mp (mt (not_representable_floor_div_iff ha hb).mp h))]
  exact classOf_ne_v _

end Sys2Proof.Machine

namespace Sys2Proof.Proofs

open Sys2Proof.Machine Sys2Proof.Safety

/-- Settles O17: every answer of the ALU is classified, and V is no class. -/
theorem flagClassifiesTheResult : Obligations.FlagClassifiesTheResult := by
  intro op in1 in2 e fl h
  rcases alu_classified h with error | (rfl : fl = classOf e)
  · cases error
    exact ⟨fun _ => rfl, fun no_v => absurd rfl no_v⟩
  · exact ⟨fun v => absurd v (classOf_ne_v e),
      fun _ => ⟨classOf_eq_z_iff e, classOf_eq_m_iff e, classOf_eq_p_iff e⟩⟩

/-- Settles O19: each of the four range-tests its exact result, and one quotient fails the test. -/
theorem overflowGivesZeroAndV : Obligations.OverflowGivesZeroAndV := by
  refine ⟨fun op in1 in2 e exact_result => ?_, fun in1 in2 => not_representable_floor_div_iff⟩
  have tested : alu op in1 in2 = some (rangeTested e) := by
    obtain ⟨rfl, rfl⟩ | ⟨rfl, rfl⟩ | ⟨rfl, rfl⟩ | ⟨rfl, nonzero, rfl⟩ := exact_result
    · rfl
    · rfl
    · rfl
    · exact alu_div_of_ne in1 nonzero
  refine ⟨fun outside => ?_, fun inside => ⟨classOf e, ?_, classOf_bits e⟩⟩
  · rw [tested, rangeTested_of_not_representable outside]
  · rw [tested, rangeTested_of_representable inside]

end Sys2Proof.Proofs
end

section
/-! SUPPORT. The ALU's pair inside an instruction: written back by an arithmetic instruction (R114), missing for
an operation outside the seven (R117, R164), discarded by HALT (R118). -/

namespace Sys2Proof.Machine

open Sys2Proof.Safety

/-! ### the write-back of a well-formed instruction -/

/-- A well-formed executed instruction whose action is the write-back leaves the ALU's pair in its target and in
`CC`, on the state after the pc advance (R100). -/
theorem exec_of_writeBack {i : Instr} {s : State} {v : Int} {fl : Flag} (hi : i.wellFormed = true)
    (hc : Executes i.fields s) (action : actionOf i = writeBack i.fields)
    (ha : alu i.op (val (s.reg i.fields.src1)) (secondOperand i.fields s) = some (v, fl)) :
    exec i s = .next ((s.advancePc.setReg i.fields.target (pat v)).setCc fl.bits) := by
  obtain ⟨ht, -⟩ := (Fields.wellFormed_iff i.fields).mp hi
  rw [exec_of_alu ((conditionMet_iff _ _).mpr hc) (sourceOperands_of_wellFormed hi s) ha, action,
    writeBack_of_lt s s.advancePc v fl ht]

/-! ### the faults of an instruction -/

/-- The faults a register or memory access raises (R162, R165). -/
def FaultKind.ofAccess : FaultKind → Bool
  | .addressFault _ _ => true
  | .registerIndexFault => true
  | .decodeFault => false
  | .unsupportedOperation => false

/-- From `s` to `t`, in the step that began in `pre`, the marker is kept, or a register or memory access has
raised. -/
def RaisesByAccessOnly (pre s t : State) : Prop :=
  t.faulted = s.faulted ∨ ∃ k, k.ofAccess = true ∧ t.faulted = some (pre.faultRecord k)

theorem RaisesByAccessOnly.raise (pre s u : State) {k : FaultKind} (hk : k.ofAccess = true) :
    RaisesByAccessOnly pre s (pre.raise k u) := .inr ⟨k, hk, rfl⟩

theorem writeBack_raises (f : Fields) (pre s : State) (v : Int) (fl : Flag) :
    RaisesByAccessOnly pre s (writeBack f pre s v fl) := by
  rcases Nat.lt_or_ge f.target 16 with ht | ht
  · rw [writeBack_of_lt pre s v fl ht]
    exact .inl rfl
  · rw [writeBack_of_ge pre s v fl ht]
    exact .raise pre s s rfl

theorem loadWord_raises (f : Fields) (pre s : State) (ea : Int) (fl : Flag) :
    RaisesByAccessOnly pre s (loadWord f pre s ea fl) := by
  cases hd : s.mem.read? ea with
  | none =>
    rw [loadWord_of_outside pre s fl hd]
    exact .raise pre s s rfl
  | some d =>
    rcases Nat.lt_or_ge f.target 16 with ht | ht
    · rw [loadWord_of_read pre s fl hd ht]
      exact .inl rfl
    · rw [loadWord_of_ge pre s fl hd ht]
      exact .raise pre s s rfl

theorem storeWord_raises (f : Fields) (pre s : State) (ea : Int) (fl : Flag) :
    RaisesByAccessOnly pre s (storeWord f pre s ea fl) := by
  rcases Nat.lt_or_ge f.target 16 with ht | ht
  · cases hm : s.mem.write? ea (s.reg f.target) with
    | none =>
      rw [storeWord_of_outside pre s fl ht hm]
      exact .raise pre s s rfl
    | some m =>
      rw [storeWord_of_write pre s fl ht hm]
      exact .inl rfl
  · rw [storeWord_of_ge pre s ea fl ht]
    exact .raise pre s s rfl

theorem actionOf_raises (i : Instr) (pre s : State) (v : Int) (fl : Flag) :
    RaisesByAccessOnly pre s (actionOf i pre s v fl) := by
  cases i with
  | halt f => exact .inl rfl
  | load f => exact loadWord_raises f pre s v fl
  | store f => exact storeWord_raises f pre s v fl
  | add f => exact writeBack_raises f pre s v fl
  | sub f => exact writeBack_raises f pre s v fl
  | mul f => exact writeBack_raises f pre s v fl
  | div f => exact writeBack_raises f pre s v fl

/-- No instruction raises anything else: decoding is over when it runs, and the ALU has its operation. -/
theorem exec_raises {i : Instr} {s t : State} (h : exec i s = .next t) : RaisesByAccessOnly s s t := by
  rcases exec_cases h with ⟨-, rfl⟩ | ⟨hc, -⟩
  · exact .inl rfl
  · rcases exec_executed_cases hc h with ⟨-, rfl⟩ | ⟨l, r, v, fl, -, -, rfl⟩
    · exact .raise s s s rfl
    · exact actionOf_raises i s s.advancePc v fl

/-- The record a step leaves is its own, of an access or of a decoding (R160). -/
theorem step_faulted_cases {s t : State} {r : FaultRecord} (h : step s = .next t) (hr : t.faulted = some r) :
    ∃ k, r = s.faultRecord k ∧ (k.ofAccess = true ∨ k = .decodeFault) := by
  obtain ⟨-, running, ⟨-, rfl⟩ | ⟨w, e, -, -, rfl⟩ | ⟨w, i, -, -, hi⟩⟩ := step_cases h
  · cases hr
    exact ⟨_, rfl, .inl rfl⟩
  · cases hr
    exact ⟨_, rfl, .inr rfl⟩
  · rcases exec_raises hi with kept | ⟨k, hk, raised⟩
    · rw [kept, running] at hr
      cases hr
    · rw [raised] at hr
      cases hr
      exact ⟨k, rfl, .inl hk⟩

/-! ### an operation the ALU has not -/

/-- A fault raised right after the pc advance leaves that advance and the record (R167). -/
theorem faultsWith_raise_advanced (s : State) (k : FaultKind) :
    FaultsWith s (s.raise k s.advancePc) k (s.pc + 1#32) :=
  ⟨rfl, State.advancePc_pc s, advancePc_lowRegsUnchanged s, rfl, rfl, advancePc_memUnchanged s⟩

/-- An executed instruction with an operation outside the seven never reaches its action (R101, R164). -/
theorem perform_of_unsupported (n : Nat) {f : Fields} (action : State → State → Int → Flag → State) {s : State}
    (h1 : f.src1 < 16) (h2 : f.src2 < 16) (hc : Executes f s) :
    perform (.other n) f action s = .next (s.raise .unsupportedOperation s.advancePc) := by
  rw [perform, if_pos ((conditionMet_iff _ _).mpr hc), executeStage_of_no_alu (sourceOperands_of_lt s h1 h2) rfl]

/-! ### HALT -/

/-- HALT with sources that are registers is decided by its mask alone (R118, R150). -/
theorem exec_halt {f : Fields} (s : State) (h1 : f.src1 < 16) (h2 : f.src2 < 16) :
    exec (.halt f) s = .next (if conditionMet f.cond s.cc then haltBlock s.advancePc else s.advancePc) := by
  cases hc : conditionMet f.cond s.cc with
  | false => exact exec_of_skipped hc
  | true => exact exec_of_alu hc (sourceOperands_of_lt s h1 h2) rfl

end Sys2Proof.Machine

namespace Sys2Proof.Proofs

open Sys2Proof.Machine Sys2Proof.Safety

/-- Settles O18: DIV writes back the pair the ALU answers, for a zero divisor as for any other. -/
theorem divisionByZeroIsFlaggedNotFatal : Obligations.DivisionByZeroIsFlaggedNotFatal := by
  refine ⟨alu_div_zero, fun f s hf hc => ?_⟩
  obtain ⟨ht, -⟩ := (Fields.wellFormed_iff f).mp hf
  by_cases divisor : secondOperand f s = 0
  · have answer : alu .div (val (s.reg f.src1)) (secondOperand f s) = some (0, .v) := by rw [divisor, alu_div_zero]
    refine ⟨_, exec_of_writeBack (i := .div f) hf hc rfl answer, rfl, fun _ => ⟨rfl, fun h0 => ?_⟩,
      fun nonzero => absurd divisor nonzero⟩
    exact State.reg_setReg_same _ _ _ h0 ht
  · have answer := alu_div_of_ne (val (s.reg f.src1)) divisor
    refine ⟨_, exec_of_writeBack (i := .div f) hf hc rfl answer, rfl, fun zero => absurd zero divisor,
      fun _ no_overflow => ?_⟩
    exact mt (Flag.bits_eq_v_iff _).mp (rangeTested_floor_div_flag_ne_v (val_range _) divisor no_overflow)

/-- Settles O21: the ALU stage raises before the action, and every record a step leaves is of an access or of a
decoding. -/
theorem unsupportedOperationIsFatal : Obligations.UnsupportedOperationIsFatal := by
  refine ⟨fun op in1 in2 => ?_, fun n f action s h1 h2 hc => ?_, fun s t r h hr => ?_⟩
  · rw [alu_eq_none]
    cases op <;> simp
  · exact ⟨_, perform_of_unsupported n action h1 h2 hc, faultsWith_raise_advanced s _⟩
  · obtain ⟨k, rfl, access | rfl⟩ := step_faulted_cases h hr
    · rintro (rfl : k = _)
      cases access
    · exact FaultKind.noConfusion

/-- Settles O22: HALT is its mask's outcome, and neither outcome touches more than the pc and `halted`. -/
theorem haltIgnoresItsOperands : Obligations.HaltIgnoresItsOperands := by
  refine ⟨fun _ _ => rfl, fun f g s t hf1 hf2 hg1 hg2 same_mask h => ?_⟩
  rw [exec_halt s hf1 hf2, same_mask] at h
  refine ⟨(exec_halt s hg1 hg2).trans h, ?_⟩
  injection h with h
  subst h
  split
  · exact ⟨advancePc_lowRegsUnchanged s, rfl, advancePc_memUnchanged s⟩
  · exact ⟨advancePc_lowRegsUnchanged s, rfl, advancePc_memUnchanged s⟩

end Sys2Proof.Proofs
end

section
/-! SUPPORT. The four arithmetic instructions, said once: the ALU's pair in the target and in `CC`, and nothing
else changed (R100), for the range-tested exact result (R113, R115). -/

namespace Sys2Proof.Machine

open Sys2Proof.Safety

/-! ### the write-back and its frame -/

/-- The pc advance, then the writes of the target and of `CC`, leave nothing else changed (R100). -/
theorem targetEffect_setReg_setCc {f : Fields} (ht : f.target < 16) (s : State) (w : Word) (c : BitVec 4) :
    TargetEffect f s ((s.advancePc.setReg f.target w).setCc c) w c := by
  refine ⟨fun h0 => ?_, rfl, fun h15 => ?_, fun r _ not_target not_pc => ?_, rfl, rfl, rfl, rfl, fun _ => rfl⟩
  · rw [State.setCc_reg, State.reg_setReg_same _ _ _ h0 ht]
  · rw [State.setCc_pc, State.pc_eq_reg, State.reg_setReg_of_ne _ _ _ _ h15.symm, ← State.pc_eq_reg,
      State.advancePc_pc]
  · rw [State.setCc_reg, State.reg_setReg_of_ne _ _ _ _ not_target, State.advancePc_reg_of_ne _ _ not_pc]

/-- A well-formed executed instruction whose action is the write-back has the ALU's pair as its one effect. -/
theorem exec_targetEffect {i : Instr} {s : State} {v : Int} {fl : Flag} (hi : i.wellFormed = true)
    (hc : Executes i.fields s) (action : actionOf i = writeBack i.fields)
    (ha : alu i.op (val (s.reg i.fields.src1)) (secondOperand i.fields s) = some (v, fl)) :
    ∃ t, exec i s = .next t ∧ TargetEffect i.fields s t (pat v) fl.bits := by
  obtain ⟨ht, -⟩ := (Fields.wellFormed_iff i.fields).mp hi
  exact ⟨_, exec_of_writeBack hi hc action ha, targetEffect_setReg_setCc ht s (pat v) fl.bits⟩

/-! ### the range-tested result -/

/-- The pair of the range test, as a word and flag bits, is the result R113 and R115 ask for. -/
theorem resultOf_rangeTested (e : Int) : ResultOf e (pat (rangeTested e).1) (rangeTested e).2.bits := by
  refine ⟨fun inside => ?_, fun outside => ?_⟩
  · obtain ⟨lower, upper⟩ := inside
    rw [rangeTested_of_representable ⟨lower, upper⟩]
    exact ⟨val_pat lower upper, classOf_bits e⟩
  · rw [rangeTested_of_not_representable outside]
    exact ⟨rfl, rfl⟩

/-- A well-formed executed instruction that writes back the range-tested `e` leaves the result of `e` and nothing
else (R100, R113, R115). -/
theorem exec_resultOf {i : Instr} {s : State} {e : Int} (hi : i.wellFormed = true) (hc : Executes i.fields s)
    (action : actionOf i = writeBack i.fields)
    (ha : alu i.op (val (s.reg i.fields.src1)) (secondOperand i.fields s) = some (rangeTested e)) :
    ∃ t value cc, exec i s = .next t ∧ TargetEffect i.fields s t value cc ∧ ResultOf e value cc := by
  obtain ⟨t, runs, effect⟩ := exec_targetEffect hi hc action ha
  exact ⟨t, _, _, runs, effect, resultOf_rangeTested e⟩

end Sys2Proof.Machine

namespace Sys2Proof.Proofs

open Sys2Proof.Machine Sys2Proof.Safety

/-- Settles O12: the ALU range-tests the exact sum, and the word has operation number 3. -/
theorem addWritesSumAndFlag : Obligations.AddWritesSumAndFlag :=
  ⟨fun f _ hf hc => exec_resultOf (i := .add f) hf hc rfl rfl,
    fun f hf => (encode_masked (i := .add f) (n := 3) hf rfl).trans (by decide), by decide⟩

/-- Settles O13: subtracting the sum that is the second operand subtracts both its parts. -/
theorem subWritesDifferenceAndFlag : Obligations.SubWritesDifferenceAndFlag := by
  refine ⟨fun f s hf hc => ?_,
    fun f hf => (encode_masked (i := .sub f) (n := 5) hf rfl).trans (by decide), by decide⟩
  have subtrahend : val (s.reg f.src1) - val (s.reg f.src2) - f.offset = val (s.reg f.src1) - secondOperand f s :=
    Int.sub_sub _ _ _
  rw [subtrahend]
  exact exec_resultOf (i := .sub f) hf hc rfl rfl

/-- Settles O14: the ALU range-tests the exact product, and the word has operation number 6. -/
theorem mulWritesProductAndFlag : Obligations.MulWritesProductAndFlag :=
  ⟨fun f _ hf hc => exec_resultOf (i := .mul f) hf hc rfl rfl,
    fun f hf => (encode_masked (i := .mul f) (n := 6) hf rfl).trans (by decide), by decide⟩

/-- Settles O15: a zero divisor is written back as 0 with V, and any other divisor range-tests the floor of the
rational quotient. -/
theorem divWritesFloorQuotientAndFlag : Obligations.DivWritesFloorQuotientAndFlag := by
  refine ⟨fun f s hf hc => ?_,
    fun f hf => (encode_masked (i := .div f) (n := 7) hf rfl).trans (by decide), by decide⟩
  by_cases divisor : secondOperand f s = 0
  · have answer : alu .div (val (s.reg f.src1)) (secondOperand f s) = some (0, .v) := by rw [divisor, alu_div_zero]
    obtain ⟨t, runs, effect⟩ := exec_targetEffect (i := .div f) hf hc rfl answer
    exact ⟨t, _, _, runs, effect, fun _ => ⟨rfl, rfl⟩, fun nonzero => absurd divisor nonzero⟩
  · have answer := alu_div_of_ne (val (s.reg f.src1)) divisor
    obtain ⟨t, value, cc, runs, effect, result⟩ := exec_resultOf (i := .div f) hf hc rfl answer
    exact ⟨t, value, cc, runs, effect, fun zero => absurd zero divisor, fun _ => result⟩

end Sys2Proof.Proofs
end

section
/-! SUPPORT. LOAD and STORE, said once: the action of each at the exact effective address with the address's
class (R116, R142), inside memory and outside it (R140, R141). -/

namespace Sys2Proof.Machine

open Sys2Proof.Safety

/-! ### the effective address -/

/-- Inside memory, as the bounds contract has it (R52, R53). -/
theorem not_outside_iff_inRange (s : State) (a : Int) : ¬Outside s a ↔ s.mem.inRange a = true := by
  rw [outside_iff_inRange_eq_false, Bool.not_eq_false]

/-- The class of an address inside memory is Z for 0 and P for any other, never M (R116). -/
theorem classOf_bits_of_not_outside {s : State} {a : Int} (h : ¬Outside s a) :
    (classOf a).bits = if a = 0 then 2#4 else 4#4 := by
  obtain ⟨nonneg, -⟩ := not_or.mp h
  rw [classOf_bits, classBits, if_neg nonneg]

/-- A well-formed executed instruction for which the ALU answers the sum and its class acts at the effective
address, on the state after the pc advance (R98, R116). -/
theorem exec_at_effectiveAddress {i : Instr} {s : State} (hi : i.wellFormed = true) (hc : Executes i.fields s)
    (ha : ∀ l r, alu i.op l r = some (l + r, classOf (l + r))) :
    exec i s = .next (actionOf i s s.advancePc (effectiveAddress i.fields s)
      (classOf (effectiveAddress i.fields s))) :=
  exec_of_alu ((conditionMet_iff _ _).mpr hc) (sourceOperands_of_wellFormed hi s) (ha _ _)

/-! ### LOAD -/

/-- A well-formed executed LOAD is its action at the effective address (R140). -/
theorem exec_load_eq {f : Fields} {s : State} (hf : f.wellFormed = true) (hc : Executes f s) :
    exec (.load f) s =
      .next (loadWord f s s.advancePc (effectiveAddress f s) (classOf (effectiveAddress f s))) :=
  exec_at_effectiveAddress (i := .load f) hf hc fun _ _ => rfl

/-- A LOAD from inside memory writes the word read and the class of the address (R140). -/
theorem exec_load_of_read {f : Fields} {s : State} {d : Word} (hf : f.wellFormed = true) (hc : Executes f s)
    (hd : s.mem.read? (effectiveAddress f s) = some d) :
    exec (.load f) s = .next ((s.advancePc.setReg f.target d).setCc (classOf (effectiveAddress f s)).bits) := by
  obtain ⟨ht, -⟩ := (Fields.wellFormed_iff f).mp hf
  rw [exec_load_eq hf hc, loadWord_of_read s s.advancePc _ hd ht]

/-- A LOAD from outside memory raises AddressFault after the pc advance (R140, R162). -/
theorem exec_load_of_outside {f : Fields} {s : State} (hf : f.wellFormed = true) (hc : Executes f s)
    (outside : Outside s (effectiveAddress f s)) :
    exec (.load f) s = .next (s.raise (.addressFault .load (effectiveAddress f s)) s.advancePc) := by
  have no_word : s.advancePc.mem.read? (effectiveAddress f s) = none :=
    Memory.read?_eq_none.mpr ((outside_iff_inRange_eq_false s _).mp outside)
  rw [exec_load_eq hf hc, loadWord_of_outside s s.advancePc _ no_word]

/-! ### STORE -/

/-- A register after the pc advance: the pc is one further, and any other register is as before (R95, D25). -/
theorem State.advancePc_reg (s : State) (r : Nat) :
    s.advancePc.reg r = if r = 15 then s.pc + 1#32 else s.reg r := by
  split
  · next is_pc => rw [is_pc, ← State.pc_eq_reg, State.advancePc_pc]
  · next not_pc => exact State.advancePc_reg_of_ne s r not_pc

/-- A well-formed executed STORE is its action at the effective address (R141). -/
theorem exec_store_eq {f : Fields} {s : State} (hf : f.wellFormed = true) (hc : Executes f s) :
    exec (.store f) s =
      .next (storeWord f s s.advancePc (effectiveAddress f s) (classOf (effectiveAddress f s))) :=
  exec_at_effectiveAddress (i := .store f) hf hc fun _ _ => rfl

/-- A STORE inside memory replaces memory by its write of the target, read after the pc advance, and writes the
class of the address (R141). -/
theorem exec_store_of_write {f : Fields} {s : State} {m : Memory} (hf : f.wellFormed = true) (hc : Executes f s)
    (hm : s.mem.write? (effectiveAddress f s) (s.advancePc.reg f.target) = some m) :
    exec (.store f) s = .next ((s.advancePc.setMem m).setCc (classOf (effectiveAddress f s)).bits) := by
  obtain ⟨ht, -⟩ := (Fields.wellFormed_iff f).mp hf
  rw [exec_store_eq hf hc, storeWord_of_write s s.advancePc _ ht hm]

/-- A STORE outside memory raises AddressFault after the pc advance (R141, R162). -/
theorem exec_store_of_outside {f : Fields} {s : State} (hf : f.wellFormed = true) (hc : Executes f s)
    (outside : Outside s (effectiveAddress f s)) :
    exec (.store f) s = .next (s.raise (.addressFault .store (effectiveAddress f s)) s.advancePc) := by
  obtain ⟨ht, -⟩ := (Fields.wellFormed_iff f).mp hf
  have no_write : s.advancePc.mem.write? (effectiveAddress f s) (s.advancePc.reg f.target) = none :=
    Memory.write?_eq_none.mpr ((outside_iff_inRange_eq_false s _).mp outside)
  rw [exec_store_eq hf hc, storeWord_of_outside s s.advancePc _ ht no_write]

end Sys2Proof.Machine

namespace Sys2Proof.Proofs

open Sys2Proof.Machine Sys2Proof.Safety

/-- Settles O23: the bounds decide between the write of the word read and the fault, and the word has operation
number 1. -/
theorem loadReadsMemoryIntoTarget : Obligations.LoadReadsMemoryIntoTarget := by
  refine ⟨fun f s hf hc inside => ?_, fun f s hf hc outside => ?_,
    fun f hf => (encode_masked (i := .load f) (n := 1) hf rfl).trans (by decide), by decide⟩
  · obtain ⟨ht, -⟩ := (Fields.wellFormed_iff f).mp hf
    have hd := Memory.read?_of_inRange ((not_outside_iff_inRange s _).mp inside)
    rw [← classOf_bits_of_not_outside inside]
    exact ⟨_, _, exec_load_of_read hf hc hd, hd, targetEffect_setReg_setCc ht s _ _⟩
  · exact ⟨_, exec_load_of_outside hf hc outside, faultsWith_raise_advanced s _⟩

/-- Settles O24: the bounds decide between the write of the target and the fault, the read-after-write rules say
what the write changes, and the word has operation number 2. -/
theorem storeWritesTargetIntoMemory : Obligations.StoreWritesTargetIntoMemory := by
  refine ⟨fun f s hf hc inside => ?_, fun f s hf hc outside => ?_,
    fun f hf => (encode_masked (i := .store f) (n := 2) hf rfl).trans (by decide), by decide⟩
  · have hm := Memory.write?_of_inRange (s.advancePc.reg f.target) ((not_outside_iff_inRange s _).mp inside)
    rw [← classOf_bits_of_not_outside inside, ← State.advancePc_reg]
    exact ⟨_, exec_store_of_write hf hc hm, Memory.read?_write?_same hm,
      fun _ other => Memory.read?_write?_of_ne hm other, Memory.write?_size hm, rfl, State.advancePc_pc s,
      advancePc_lowRegsUnchanged s, rfl, rfl⟩
  · exact ⟨_, exec_store_of_outside hf hc outside, faultsWith_raise_advanced s _⟩

end Sys2Proof.Proofs
end

section
/-! SUPPORT. The halted flag: only an executed HALT sets it, and a halted block takes no step (R31, R104, R150). -/

namespace Sys2Proof

/-- An instruction that was decoded has the ranges of R70. -/
theorem decode_wellFormed {w : Word} {i : Instr} (h : decode w = .instruction i) : i.wellFormed = true := by
  obtain ⟨-, -, hf⟩ := decode_inv h
  rw [Instr.wellFormed, hf]
  exact fieldsOf_wellFormed w

end Sys2Proof

namespace Sys2Proof.Machine

open Sys2Proof.Safety

/-! ### the actions that leave the flag alone -/

/-- The write-back leaves the halted flag alone. -/
theorem writeBack_halted (f : Fields) (pre s : State) (v : Int) (fl : Flag) :
    (writeBack f pre s v fl).halted = s.halted := by
  rcases Nat.lt_or_ge f.target 16 with ht | ht
  · rw [writeBack_of_lt pre s v fl ht, State.setCc_halted, State.setReg_halted]
  · rw [writeBack_of_ge pre s v fl ht, State.raise_halted]

/-- A load leaves the halted flag alone. -/
theorem loadWord_halted (f : Fields) (pre s : State) (ea : Int) (fl : Flag) :
    (loadWord f pre s ea fl).halted = s.halted := by
  cases hd : s.mem.read? ea with
  | none => rw [loadWord_of_outside pre s fl hd, State.raise_halted]
  | some d =>
    rcases Nat.lt_or_ge f.target 16 with ht | ht
    · rw [loadWord_of_read pre s fl hd ht, State.setCc_halted, State.setReg_halted]
    · rw [loadWord_of_ge pre s fl hd ht, State.raise_halted]

/-- A store leaves the halted flag alone. -/
theorem storeWord_halted (f : Fields) (pre s : State) (ea : Int) (fl : Flag) :
    (storeWord f pre s ea fl).halted = s.halted := by
  rcases Nat.lt_or_ge f.target 16 with ht | ht
  · cases hm : s.mem.write? ea (s.reg f.target) with
    | none => rw [storeWord_of_outside pre s fl ht hm, State.raise_halted]
    | some m => rw [storeWord_of_write pre s fl ht hm, State.setCc_halted, State.setMem_halted]
  · rw [storeWord_of_ge pre s ea fl ht, State.raise_halted]

/-- No action but HALT's touches the halted flag (R31). -/
theorem actionOf_halted_of_not_halt {i : Instr} (hi : ∀ f, i ≠ .halt f) (pre s : State) (v : Int) (fl : Flag) :
    (actionOf i pre s v fl).halted = s.halted := by
  cases i with
  | halt f => exact absurd rfl (hi f)
  | load f => exact loadWord_halted f pre s v fl
  | store f => exact storeWord_halted f pre s v fl
  | add f => exact writeBack_halted f pre s v fl
  | sub f => exact writeBack_halted f pre s v fl
  | mul f => exact writeBack_halted f pre s v fl
  | div f => exact writeBack_halted f pre s v fl

/-! ### the instructions and the step -/

/-- No instruction but HALT touches the halted flag, skipped, executed or faulting (R31). -/
theorem exec_halted_of_not_halt {i : Instr} {s t : State} (hi : ∀ f, i ≠ .halt f) (h : exec i s = .next t) :
    t.halted = s.halted := by
  rcases exec_cases h with ⟨-, rfl⟩ | ⟨hc, -⟩
  · exact State.advancePc_halted s
  · rcases exec_executed_cases hc h with ⟨-, rfl⟩ | ⟨l, r, v, fl, -, -, rfl⟩
    · exact State.raise_halted s s .registerIndexFault
    · exact actionOf_halted_of_not_halt hi s s.advancePc v fl

/-- An executed HALT with sources that are registers is the pc advance and the flag (R150). -/
theorem exec_halt_of_executes {f : Fields} {s : State} (h1 : f.src1 < 16) (h2 : f.src2 < 16) (hc : Executes f s) :
    exec (.halt f) s = .next (haltBlock s.advancePc) := by
  rw [exec_halt s h1 h2, if_pos ((conditionMet_iff _ _).mpr hc)]

/-- A HALT whose test fails is the skip (R95). -/
theorem exec_halt_of_not_executes {f : Fields} {s : State} (hc : ¬Executes f s) :
    exec (.halt f) s = .next s.advancePc :=
  exec_of_skipped (i := .halt f) ((conditionMet_eq_false _ _).mpr (not_not.mp hc))

/-- A HALT with sources that are registers halts a block that has not halted exactly when it is executed (R150). -/
theorem exec_halt_halted_iff {f : Fields} {s t : State} (h1 : f.src1 < 16) (h2 : f.src2 < 16)
    (running : s.halted = false) (h : exec (.halt f) s = .next t) : t.halted = true ↔ Executes f s := by
  by_cases hc : Executes f s
  · rw [exec_halt_of_executes h1 h2 hc] at h
    injection h with h
    exact iff_of_true (h ▸ rfl) hc
  · rw [exec_halt_of_not_executes hc] at h
    injection h with h
    rw [← h, State.advancePc_halted, running]
    exact iff_of_false Bool.false_ne_true hc

/-- A well-formed instruction halts a block that has not halted exactly when it is an executed HALT. -/
theorem exec_halted_iff {i : Instr} {s t : State} (hi : i.wellFormed = true) (running : s.halted = false)
    (h : exec i s = .next t) : t.halted = true ↔ ∃ f, i = .halt f ∧ Executes f s := by
  by_cases is_halt : ∃ f, i = .halt f
  · obtain ⟨f, rfl⟩ := is_halt
    obtain ⟨-, h1, h2, -, -⟩ := (Fields.wellFormed_iff f).mp hi
    simp [exec_halt_halted_iff h1 h2 running h]
  · rw [exec_halted_of_not_halt (not_exists.mp is_halt) h, running]
    exact iff_of_false Bool.false_ne_true fun ⟨f, hf, _⟩ => is_halt ⟨f, hf⟩

/-- A step halts the block exactly when the word it fetches is a HALT that is executed (R31, R150). -/
theorem step_halted_iff {s t : State} (h : step s = .next t) :
    t.halted = true ↔ ∃ w f, s.fetch? = some w ∧ decode w = .instruction (.halt f) ∧ Executes f s := by
  obtain ⟨running, -, ⟨hw, rfl⟩ | ⟨w, e, hw, he, rfl⟩ | ⟨w, i, hw, hd, hi⟩⟩ := step_cases h
  · simp [running, hw]
  · simp [running, hw, he]
  · rw [exec_halted_iff (decode_wellFormed hd) running hi]
    simp [hw, hd]

/-- A halted block takes no step (R104). -/
theorem no_step_of_halted {s : State} (h : s.halted = true) : ¬∃ u, step s = .next u := by
  rintro ⟨u, hu⟩
  obtain ⟨running, -⟩ := step_cases hu
  exact Bool.false_ne_true (running.symm.trans h)

end Sys2Proof.Machine

namespace Sys2Proof.Proofs

open Sys2Proof.Machine Sys2Proof.Safety

/-- Settles O29: HALT is the pc advance and the flag or the pc advance alone, no other instruction touches the flag,
and the word has operation number 0. -/
theorem haltStopsTheRun : Obligations.HaltStopsTheRun := by
  refine ⟨fun f s h1 h2 hc => ?_, fun f s hc => ?_, fun s t h => step_halted_iff h,
    fun f hf => (encode_masked (i := .halt f) (n := 0) hf rfl).trans (by decide), by decide, by decide⟩
  · exact ⟨_, exec_halt_of_executes h1 h2 hc, rfl, State.advancePc_pc s, advancePc_lowRegsUnchanged s, rfl, rfl,
      advancePc_memUnchanged s, no_step_of_halted rfl⟩
  · exact ⟨_, exec_halt_of_not_executes hc, State.advancePc_halted s⟩

end Sys2Proof.Proofs
end

section
/-! SUPPORT. The two faults of an instruction's accesses: a register index above 15 (R165), and an address of an
executed LOAD or STORE outside memory (R162). -/

namespace Sys2Proof.Machine

open Sys2Proof.Safety

/-! ### an index above 15 -/

/-- An executed instruction with sources that are registers, whose action refuses its target whatever the ALU
answers, raises RegisterIndexFault after the pc advance (R165, R167). -/
theorem exec_of_target_refused {i : Instr} {s : State} (hc : Executes i.fields s) (h1 : i.fields.src1 < 16)
    (h2 : i.fields.src2 < 16)
    (refused : ∀ v fl, actionOf i s s.advancePc v fl = s.raise .registerIndexFault s.advancePc) :
    exec i s = .next (s.raise .registerIndexFault s.advancePc) := by
  obtain ⟨v, fl, ha⟩ := alu_op_isSome i (val (s.reg i.fields.src1)) (secondOperand i.fields s)
  rw [exec_of_alu ((conditionMet_iff _ _).mpr hc) (sourceOperands_of_lt s h1 h2) ha, refused]

/-- A LOAD from inside memory refuses a target above 15 once it has read its word (R100, R165). -/
theorem exec_load_of_target_ge {f : Fields} {s : State} (hc : Executes f s) (h1 : f.src1 < 16) (h2 : f.src2 < 16)
    (ht : 16 ≤ f.target) (inside : ¬Outside s (effectiveAddress f s)) :
    exec (.load f) s = .next (s.raise .registerIndexFault s.advancePc) := by
  have hd := Memory.read?_of_inRange ((not_outside_iff_inRange s _).mp inside)
  have acts : exec (.load f) s =
      .next (loadWord f s s.advancePc (effectiveAddress f s) (classOf (effectiveAddress f s))) :=
    exec_of_alu (i := .load f) ((conditionMet_iff _ _).mpr hc) (sourceOperands_of_lt s h1 h2) rfl
  rw [acts, loadWord_of_ge s s.advancePc _ hd ht]

/-! ### an address outside memory -/

/-- The instruction is executed in `s` and accesses memory, by the access given, at the address given, which is
outside it (R162). -/
def AccessesOutside (s : State) (i : Instr) (acc : Access) (a : Int) : Prop :=
  ∃ f, Executes f s ∧ a = effectiveAddress f s ∧ Outside s a ∧
    ((acc = .load ∧ i = .load f) ∨ (acc = .store ∧ i = .store f))

/-- A well-formed instruction that accesses outside memory raises AddressFault after the pc advance (R162, R167). -/
theorem exec_of_accessesOutside {s : State} {i : Instr} {acc : Access} {a : Int} (hi : i.wellFormed = true)
    (h : AccessesOutside s i acc a) : exec i s = .next (s.raise (.addressFault acc a) s.advancePc) := by
  obtain ⟨f, hc, rfl, outside, ⟨rfl, rfl⟩ | ⟨rfl, rfl⟩⟩ := h
  · exact exec_load_of_outside hi hc outside
  · exact exec_store_of_outside hi hc outside

/-- A well-formed executed instruction whose action is the write-back raises nothing (R114). -/
theorem exec_writeBack_faulted {i : Instr} {s : State} (hi : i.wellFormed = true) (hc : Executes i.fields s)
    (action : actionOf i = writeBack i.fields) : ∃ t, exec i s = .next t ∧ t.faulted = s.faulted := by
  obtain ⟨v, fl, ha⟩ := alu_op_isSome i (val (s.reg i.fields.src1)) (secondOperand i.fields s)
  exact ⟨_, exec_of_writeBack hi hc action ha, rfl⟩

/-- A well-formed instruction that does not access outside memory raises nothing: a skip, a LOAD or STORE inside
memory, or an instruction that accesses no memory (R162). -/
theorem exec_faulted_of_not_accessesOutside {s : State} {i : Instr} (hi : i.wellFormed = true)
    (h : ∀ acc a, ¬AccessesOutside s i acc a) : ∃ t, exec i s = .next t ∧ t.faulted = s.faulted := by
  by_cases hc : Executes i.fields s
  · cases i with
    | halt f =>
      obtain ⟨-, h1, h2, -⟩ := (Fields.wellFormed_iff f).mp hi
      exact ⟨_, exec_halt_of_executes h1 h2 hc, rfl⟩
    | load f =>
      have inside : ¬Outside s (effectiveAddress f s) := fun outside =>
        h .load _ ⟨f, hc, rfl, outside, .inl ⟨rfl, rfl⟩⟩
      exact ⟨_, exec_load_of_read hi hc (Memory.read?_of_inRange ((not_outside_iff_inRange s _).mp inside)), rfl⟩
    | store f =>
      have inside : ¬Outside s (effectiveAddress f s) := fun outside =>
        h .store _ ⟨f, hc, rfl, outside, .inr ⟨rfl, rfl⟩⟩
      exact ⟨_, exec_store_of_write hi hc (Memory.write?_of_inRange _ ((not_outside_iff_inRange s _).mp inside)), rfl⟩
    | add f => exact exec_writeBack_faulted hi hc rfl
    | sub f => exact exec_writeBack_faulted hi hc rfl
    | mul f => exact exec_writeBack_faulted hi hc rfl
    | div f => exact exec_writeBack_faulted hi hc rfl
  · exact ⟨_, exec_of_skipped ((conditionMet_eq_false _ _).mpr (not_not.mp hc)), rfl⟩

/-- A well-formed instruction leaves an AddressFault record exactly when it accesses outside memory, and then with
the word fetched (R160, R162). -/
theorem exec_addressFault_iff {s t : State} {i : Instr} {acc : Access} {a : Int} {w : Option Word}
    (hi : i.wellFormed = true) (running : s.faulted = none) (h : exec i s = .next t) :
    t.faulted = some { kind := .addressFault acc a, pc := s.pc, word := w } ↔
      w = s.fetch? ∧ AccessesOutside s i acc a := by
  constructor
  · intro hr
    by_cases accesses : ∃ acc' a', AccessesOutside s i acc' a'
    · obtain ⟨acc', a', ha⟩ := accesses
      rw [exec_of_accessesOutside hi ha] at h
      cases h
      cases hr
      exact ⟨rfl, ha⟩
    · obtain ⟨u, hu, kept⟩ := exec_faulted_of_not_accessesOutside hi fun acc' a' ha => accesses ⟨acc', a', ha⟩
      rw [hu] at h
      cases h
      rw [kept, running] at hr
      cases hr
  · rintro ⟨rfl, ha⟩
    rw [exec_of_accessesOutside hi ha] at h
    cases h
    rfl

/-- A fetch that gives a word is no source of an AddressFault (R91). -/
theorem not_fetch_source {s : State} {v : Word} (hw : s.fetch? = some v) {acc : Access} {a : Int} {w : Option Word} :
    ¬(acc = .fetch ∧ a = val s.pc ∧ Outside s a ∧ w = none) := by
  rintro ⟨-, rfl, outside, -⟩
  rw [s.fetch?_eq_none_iff.mpr outside] at hw
  cases hw

end Sys2Proof.Machine

namespace Sys2Proof.Proofs

open Sys2Proof.Machine Sys2Proof.Safety

/-- Settles O33: decoding bounds the indices, the source reads come before the advance, and the target access of
each of the six instructions after it. -/
theorem registerIndexOutOfRangeIsFatal : Obligations.RegisterIndexOutOfRangeIsFatal := by
  refine ⟨fun w i hd => ?_, fun i s hc source => ?_, fun f s i hc h1 h2 ht hi => ?_⟩
  · obtain ⟨ht, h1, h2, -⟩ := (Fields.wellFormed_iff i.fields).mp (decode_wellFormed hd)
    exact ⟨ht, h1, h2⟩
  · exact ⟨_, exec_of_no_source ((conditionMet_iff _ _).mpr hc) (sourceOperands_of_ge s source),
      faultsWith_raise_self s _⟩
  · refine ⟨s.raise .registerIndexFault s.advancePc, ?_, faultsWith_raise_advanced s _⟩
    have no_write_back v fl := writeBack_of_ge s s.advancePc v fl ht
    rcases hi with rfl | rfl | rfl | rfl | rfl | ⟨rfl, inside⟩
    · exact exec_of_target_refused (i := .add f) hc h1 h2 no_write_back
    · exact exec_of_target_refused (i := .sub f) hc h1 h2 no_write_back
    · exact exec_of_target_refused (i := .mul f) hc h1 h2 no_write_back
    · exact exec_of_target_refused (i := .div f) hc h1 h2 no_write_back
    · exact exec_of_target_refused (i := .store f) hc h1 h2 fun v fl => storeWord_of_ge s s.advancePc v fl ht
    · exact exec_load_of_target_ge hc h1 h2 ht inside

/-- Settles O40: a failed fetch raises it, a rejected word raises another fault, and an instruction raises it by an
access outside memory. -/
theorem addressFaultHasThreeSources : Obligations.AddressFaultHasThreeSources := by
  intro s t acc a w h
  obtain ⟨-, running, ⟨hw, rfl⟩ | ⟨v, e, hw, he, rfl⟩ | ⟨v, i, hw, hd, hi⟩⟩ := step_cases h
  · have no_word : s.mem.read? (val s.pc) = none := hw
    have outside := s.fetch?_eq_none_iff.mp hw
    constructor
    · rintro ⟨⟩
      exact .inl ⟨rfl, rfl, outside, hw⟩
    · rintro (⟨rfl, rfl, -, rfl⟩ | ⟨v, f, word, -⟩)
      · rw [State.raise_faulted, hw]
      · cases no_word.symm.trans word
  · have word : s.mem.read? (val s.pc) = some v := hw
    rw [or_iff_right (not_fetch_source hw)]
    simp [he, word]
  · have word : s.mem.read? (val s.pc) = some v := hw
    rw [or_iff_right (not_fetch_source hw), exec_addressFault_iff (decode_wellFormed hd) running hi]
    simp [AccessesOutside, hd, hw, word]

end Sys2Proof.Proofs
end

section
/-! SUPPORT. What an instruction can leave, said once, with one case for each outcome of R95, R100 and R167. -/

namespace Sys2Proof.Machine

open Sys2Proof.Safety

/-! ### the four arithmetic instructions -/

/-- The instructions whose action is the write-back (R130 to R133). -/
def Arithmetic : Instr → Prop
  | .halt _ => False
  | .load _ => False
  | .store _ => False
  | .add _ => True
  | .sub _ => True
  | .mul _ => True
  | .div _ => True

theorem Arithmetic.actionOf_eq {i : Instr} (h : Arithmetic i) : actionOf i = writeBack i.fields := by
  cases i with
  | halt f => exact h.elim
  | load f => exact h.elim
  | store f => exact h.elim
  | add f => rfl
  | sub f => rfl
  | mul f => rfl
  | div f => rfl

/-- The instructions that write their target are LOAD and the four (R23). -/
theorem writesTarget_iff (i : Instr) : WritesTarget i ↔ (∃ f, i = .load f) ∨ Arithmetic i := by
  cases i <;> simp [WritesTarget, Arithmetic]

/-- The instructions that write `CC` are LOAD, STORE and the four (R29). -/
theorem writesFlag_iff (i : Instr) : WritesFlag i ↔ (∃ f, i = .load f ∨ i = .store f) ∨ Arithmetic i := by
  cases i <;> simp [WritesFlag, Arithmetic]

/-! ### the source reads, read backwards -/

theorem sourceOperands_eq_some {f : Fields} {s : State} {l r : Int} (h : sourceOperands f s = some (l, r)) :
    l = val (s.reg f.src1) ∧ r = secondOperand f s := by
  by_cases indices : f.src1 < 16 ∧ f.src2 < 16
  · rw [sourceOperands_of_lt s indices.1 indices.2] at h
    cases h
    exact ⟨rfl, rfl⟩
  · rw [sourceOperands_of_ge s (by omega)] at h
    cases h

/-! ### the outcomes -/

/-- The states an instruction can leave from `s`. -/
inductive ExecLeaves (s : State) : Instr → State → Prop where
  /-- the test fails (R95) -/
  | skip {i : Instr} (hc : ¬Executes i.fields s) : ExecLeaves s i s.advancePc
  /-- HALT (R150) -/
  | halt {f : Fields} (hc : Executes f s) : ExecLeaves s (.halt f) (haltBlock s.advancePc)
  /-- a LOAD from inside memory (R140) -/
  | load {f : Fields} {d : Word} (hc : Executes f s) (ht : f.target < 16)
      (hd : s.mem.read? (effectiveAddress f s) = some d) :
      ExecLeaves s (.load f) ((s.advancePc.setReg f.target d).setCc (classOf (effectiveAddress f s)).bits)
  /-- a STORE inside memory (R141) -/
  | store {f : Fields} {m : Memory} (hc : Executes f s)
      (hm : s.mem.write? (effectiveAddress f s) (s.advancePc.reg f.target) = some m) :
      ExecLeaves s (.store f) ((s.advancePc.setMem m).setCc (classOf (effectiveAddress f s)).bits)
  /-- ADD, SUB, MUL, DIV (R130 to R133) -/
  | arithmetic {i : Instr} {v : Int} {fl : Flag} (hi : Arithmetic i) (hc : Executes i.fields s)
      (ht : i.fields.target < 16)
      (ha : alu i.op (val (s.reg i.fields.src1)) (secondOperand i.fields s) = some (v, fl)) :
      ExecLeaves s i ((s.advancePc.setReg i.fields.target (pat v)).setCc fl.bits)
  /-- a LOAD or STORE outside memory (R162) -/
  | outside {i : Instr} {acc : Access} {a : Int} (ha : AccessesOutside s i acc a) :
      ExecLeaves s i (s.raise (.addressFault acc a) s.advancePc)
  /-- an index that names no register (R165), which no decoded instruction has -/
  | badIndex {i : Instr} {u : State} (hi : i.wellFormed ≠ true) : ExecLeaves s i (s.raise .registerIndexFault u)

theorem not_wellFormed_of_target_ge {i : Instr} (h : 16 ≤ i.fields.target) : i.wellFormed ≠ true := by
  intro hi
  obtain ⟨ht, -⟩ := (Fields.wellFormed_iff i.fields).mp hi
  omega

theorem loadWord_leaves {f : Fields} {s : State} (hc : Executes f s) :
    ExecLeaves s (.load f) (loadWord f s s.advancePc (effectiveAddress f s) (classOf (effectiveAddress f s))) := by
  cases hd : s.mem.read? (effectiveAddress f s) with
  | none =>
    rw [loadWord_of_outside s s.advancePc _ hd]
    have outside := (outside_iff_inRange_eq_false s _).mpr (Memory.read?_eq_none.mp hd)
    exact .outside ⟨f, hc, rfl, outside, .inl ⟨rfl, rfl⟩⟩
  | some d =>
    rcases Nat.lt_or_ge f.target 16 with ht | ht
    · rw [loadWord_of_read s s.advancePc _ hd ht]
      exact .load hc ht hd
    · rw [loadWord_of_ge s s.advancePc _ hd ht]
      exact .badIndex (not_wellFormed_of_target_ge ht)

theorem storeWord_leaves {f : Fields} {s : State} (hc : Executes f s) :
    ExecLeaves s (.store f) (storeWord f s s.advancePc (effectiveAddress f s) (classOf (effectiveAddress f s))) := by
  rcases Nat.lt_or_ge f.target 16 with ht | ht
  · cases hm : s.mem.write? (effectiveAddress f s) (s.advancePc.reg f.target) with
    | none =>
      rw [storeWord_of_outside s s.advancePc _ ht hm]
      have outside := (outside_iff_inRange_eq_false s _).mpr (Memory.write?_eq_none.mp hm)
      exact .outside ⟨f, hc, rfl, outside, .inr ⟨rfl, rfl⟩⟩
    | some m =>
      rw [storeWord_of_write s s.advancePc _ ht hm]
      exact .store hc hm
  · rw [storeWord_of_ge s s.advancePc _ _ ht]
    exact .badIndex (not_wellFormed_of_target_ge ht)

theorem writeBack_leaves {i : Instr} {s : State} {v : Int} {fl : Flag} (hi : Arithmetic i) (hc : Executes i.fields s)
    (ha : alu i.op (val (s.reg i.fields.src1)) (secondOperand i.fields s) = some (v, fl)) :
    ExecLeaves s i (writeBack i.fields s s.advancePc v fl) := by
  rcases Nat.lt_or_ge i.fields.target 16 with ht | ht
  · rw [writeBack_of_lt s s.advancePc v fl ht]
    exact .arithmetic hi hc ht ha
  · rw [writeBack_of_ge s s.advancePc v fl ht]
    exact .badIndex (not_wellFormed_of_target_ge ht)

/-- What an executed instruction leaves once its sources are read and the ALU has answered. -/
theorem actionOf_leaves {i : Instr} {s : State} {v : Int} {fl : Flag} (hc : Executes i.fields s)
    (ha : alu i.op (val (s.reg i.fields.src1)) (secondOperand i.fields s) = some (v, fl)) :
    ExecLeaves s i (actionOf i s s.advancePc v fl) := by
  cases i with
  | halt f => exact .halt hc
  | load f => cases ha; exact loadWord_leaves hc
  | store f => cases ha; exact storeWord_leaves hc
  | add f => exact writeBack_leaves (i := .add f) trivial hc ha
  | sub f => exact writeBack_leaves (i := .sub f) trivial hc ha
  | mul f => exact writeBack_leaves (i := .mul f) trivial hc ha
  | div f => exact writeBack_leaves (i := .div f) trivial hc ha

/-- Every outcome of an instruction, whatever its fields. -/
theorem exec_leaves {i : Instr} {s t : State} (h : exec i s = .next t) : ExecLeaves s i t := by
  rcases exec_cases h with ⟨hc, rfl⟩ | ⟨hc, -⟩
  · exact .skip (not_not_intro ((conditionMet_eq_false _ _).mp hc))
  · rcases exec_executed_cases hc h with ⟨no_source, rfl⟩ | ⟨l, r, v, fl, hs, ha, rfl⟩
    · refine .badIndex fun hi => ?_
      rw [sourceOperands_of_wellFormed hi] at no_source
      cases no_source
    · obtain ⟨rfl, rfl⟩ := sourceOperands_eq_some hs
      exact actionOf_leaves ((conditionMet_iff _ _).mp hc) ha

/-- The block steps exactly while it runs, and then as `Step` does (R104). -/
theorem running_of_step {s t : State} (h : step s = .next t) : Running s := by
  obtain ⟨hh, hf, -⟩ := step_cases h
  exact ⟨hh, hf⟩

/-- A running block whose word decodes runs its instruction (R90). -/
theorem step_of_instruction {s : State} {w : Word} {i : Instr} (hs : Running s) (hw : s.fetch? = some w)
    (hd : decode w = .instruction i) : step s = exec i s := by
  obtain ⟨hh, hf⟩ := hs
  rw [step_of_running hh hf, cycle_of_instruction hw hd]

end Sys2Proof.Machine
end

section
/-! SUPPORT. The invariant of the block, kept by every step. -/

namespace Sys2Proof.Machine

open Sys2Proof.Safety

/-! ### the invariant by its parts -/

theorem inv_iff (s : State) :
    inv s = true ↔ s.mem.wf = true ∧ ccLegal s.cc = true ∧ (s.faulted ≠ none → s.halted = false) ∧
      ∀ r, s.faulted = some r → recordOk s r = true := by
  cases hf : s.faulted with
  | none => simp [inv, hf]
  | some r => simp [inv, hf, and_assoc]

/-- Without a record the invariant speaks of memory and flag only. -/
theorem inv_of_no_fault {s : State} (hm : s.mem.wf = true) (hc : ccLegal s.cc = true) (hf : s.faulted = none) :
    inv s = true := by
  simp [inv_iff, hm, hc, hf]

/-- A fault raised on a block that has not halted keeps the invariant where its record is true. -/
theorem inv_raise {pre s : State} {k : FaultKind} (hm : s.mem.wf = true) (hc : ccLegal s.cc = true)
    (hh : s.halted = false) (hr : recordOk (pre.raise k s) (pre.faultRecord k) = true) :
    inv (pre.raise k s) = true := by
  refine (inv_iff _).mpr ⟨hm, hc, fun _ => hh, ?_⟩
  rintro r ⟨⟩
  exact hr

/-- A single flag is a legal `CC` (R27). -/
theorem ccLegal_bits (fl : Flag) : ccLegal fl.bits = true := by cases fl <;> decide

/-! ### the three records are true -/

theorem recordOk_fetch {s : State} (hw : s.fetch? = none) :
    recordOk (s.raise (.addressFault .fetch (val s.pc)) s) (s.faultRecord (.addressFault .fetch (val s.pc))) = true := by
  simp [recordOk, State.faultRecord, hw, Memory.read?_eq_none.mp hw]

theorem recordOk_decode {s : State} {w : Word} (hw : s.fetch? = some w) (hi : illegal w = true) :
    recordOk (s.raise .decodeFault s) (s.faultRecord .decodeFault) = true := by
  have word : s.mem.read? (val s.pc) = some w := hw
  simp [recordOk, State.faultRecord, hw, word, hi]

/-- Putting the old pc back undoes the pc advance for every register. -/
theorem State.advancePc_setPc_reg (s : State) (r : Nat) : (s.advancePc.setPc s.pc).reg r = s.reg r := by
  by_cases is_pc : r = 15
  · rw [is_pc, ← State.pc_eq_reg, State.setPc_pc, State.pc_eq_reg]
  · rw [State.setPc_reg_of_ne _ _ _ is_pc, State.advancePc_reg_of_ne _ _ is_pc]

/-- The effective address the record of an access fault is checked against is that of the step (R167). -/
theorem effectiveAddress_raise_setPc (f : Fields) (s : State) (k : FaultKind) :
    effectiveAddress f ((s.raise k s.advancePc).setPc s.pc) = effectiveAddress f s := by
  have regs (r : Nat) : ((s.raise k s.advancePc).setPc s.pc).reg r = s.reg r := State.advancePc_setPc_reg s r
  simp only [effectiveAddress, secondOperand, regs]

theorem recordOk_access {s : State} {w : Word} {i : Instr} {acc : Access} {a : Int} (hw : s.fetch? = some w)
    (hd : decode w = .instruction i) (ha : AccessesOutside s i acc a) :
    recordOk (s.raise (.addressFault acc a) s.advancePc) (s.faultRecord (.addressFault acc a)) = true := by
  have word : s.mem.read? (val s.pc) = some w := hw
  obtain ⟨f, hc, rfl, outside, ⟨rfl, rfl⟩ | ⟨rfl, rfl⟩⟩ := ha
  · simp [recordOk, State.faultRecord, hw, word, hd, effectiveAddress_raise_setPc, (conditionMet_iff _ _).mpr hc,
      (outside_iff_inRange_eq_false s _).mp outside]
  · simp [recordOk, State.faultRecord, hw, word, hd, effectiveAddress_raise_setPc, (conditionMet_iff _ _).mpr hc,
      (outside_iff_inRange_eq_false s _).mp outside]

/-! ### the step -/

/-- A decoded instruction keeps the invariant of a running block. -/
theorem exec_keeps_inv {s t : State} {w : Word} {i : Instr} (hs : inv s = true) (running : Running s)
    (hw : s.fetch? = some w) (hd : decode w = .instruction i) (h : exec i s = .next t) : inv t = true := by
  obtain ⟨hm, hcc, -, -⟩ := (inv_iff s).mp hs
  obtain ⟨not_halted, no_fault⟩ := running
  cases exec_leaves h with
  | skip => exact inv_of_no_fault hm hcc no_fault
  | halt => exact inv_of_no_fault hm hcc no_fault
  | load => exact inv_of_no_fault hm (ccLegal_bits _) no_fault
  | store _ written => exact inv_of_no_fault (Memory.wf_write? hm written) (ccLegal_bits _) no_fault
  | arithmetic => exact inv_of_no_fault hm (ccLegal_bits _) no_fault
  | outside ha => exact inv_raise hm hcc not_halted (recordOk_access hw hd ha)
  | badIndex bad => exact absurd (decode_wellFormed hd) bad

end Sys2Proof.Machine

namespace Sys2Proof.Proofs

open Sys2Proof.Machine Sys2Proof.Safety

/-- Settles O44: a step raises one of the three true records, or is an instruction, whose outcomes keep memory
canonical and `CC` legal. -/
theorem stepKeepsTheInvariant : Obligations.StepKeepsTheInvariant := by
  intro s t hs h
  obtain ⟨hm, hcc, -, -⟩ := (inv_iff s).mp hs
  obtain ⟨not_halted, no_fault, ⟨hw, rfl⟩ | ⟨w, e, hw, he, rfl⟩ | ⟨w, i, hw, hd, hi⟩⟩ := step_cases h
  · exact inv_raise hm hcc not_halted (recordOk_fetch hw)
  · exact inv_raise hm hcc not_halted (recordOk_decode hw (illegal_eq_true.mpr ⟨e, he⟩))
  · exact exec_keeps_inv hs ⟨not_halted, no_fault⟩ hw hd hi

/-- Settles O45: reset has no record and `CC` is ALWAYS. -/
theorem resetMeetsTheInvariant : Obligations.ResetMeetsTheInvariant := by
  have reset_inv (m : Memory) (hm : m.wf = true) : inv (State.resetWith m) = true :=
    inv_of_no_fault hm rfl rfl
  exact ⟨reset_inv, reset_inv Memory.initial Memory.initial_wf⟩

end Sys2Proof.Proofs
end

section
/-! SUPPORT. Encoding as the inverse of decoding on the words that decode (R76, R77). -/

namespace Sys2Proof

/-- The stored ten bits of a sign-extended offset are the ten bits it was extended from (R8, R77). -/
theorem sext10_emod_toNat {n : Nat} (h : n < 1024) : (sext10 n % 1024).toNat = n := by
  unfold sext10
  split <;> omega

/-- Encoding is a left inverse of decoding: the slices of a word that decodes make up the whole word. -/
theorem encode_of_decode {w : Word} {i : Instr} (h : decode w = .instruction i) : encode i = w := by
  obtain ⟨h31, hop, hf⟩ := decode_inv h
  have offset_bits : slice w 9 0 < 1024 := Nat.mod_lt _ (by decide)
  have word_lt : w.toNat < 4294967296 := w.isLt
  apply BitVec.eq_of_toNat_eq
  rw [encode_toNat (decode_wellFormed h), hop, hf]
  simp only [fieldsOf, sext10_emod_toNat offset_bits]
  simp only [slice_eq, BitVec.toNat_ofNat] at h31 ⊢
  omega

end Sys2Proof

namespace Sys2Proof.Proofs

open Sys2Proof.Machine Sys2Proof.Safety

/-- Settles O2: decoding bounds the fields, and they are the slices of the word. -/
theorem encodeOfADecodedWordIsTheWord : Obligations.EncodeOfADecodedWordIsTheWord :=
  fun _ _ h => ⟨decode_wellFormed h, encode_of_decode h⟩

/-- Settles O5: the nine words of table E, by evaluation. -/
theorem writtenOutWordsDecode : Obligations.WrittenOutWordsDecode :=
  ⟨by decide, by decide, by decide, by decide, by decide, by decide, by decide, by decide, by decide⟩

end Sys2Proof.Proofs
end

section
/-! SUPPORT. The masks that pass the condition test under each value of `CC` (R28, R94). -/

namespace Sys2Proof.Machine

open Sys2Proof.Safety

/-- While `CC` is ALWAYS the mask is its own test. -/
theorem conditionMet_under_always (c : BitVec 4) : conditionMet c 15#4 = decide (c ≠ 0#4) := by
  have mask_and : c &&& 15#4 = c := BitVec.and_allOnes
  rw [Bool.eq_iff_iff, conditionMet_iff, mask_and, decide_eq_true_eq]

/-- Under a single flag the test is the mask's bit for it. -/
theorem conditionMet_under_single (c : BitVec 4) {b : Nat} (hb : b < 4) :
    conditionMet c (1#4 <<< b) = c.getLsbD b := by
  have flag_ne_zero : BitVec.twoPow 4 b ≠ 0#4 := by interval_cases b <;> decide
  rw [Bool.eq_iff_iff, conditionMet_iff, ← BitVec.twoPow_eq, BitVec.and_twoPow]
  split <;> simp_all

/-- Every legal `CC` has a bit set (R27). -/
theorem ne_zero_of_ccLegal {cc : BitVec 4} (h : ccLegal cc = true) : cc ≠ 0#4 := by
  rintro rfl
  exact absurd h (by decide)

/-- Mask ALWAYS passes exactly where `CC` has a bit set. -/
theorem conditionMet_always_iff (cc : BitVec 4) : conditionMet 15#4 cc = true ↔ cc ≠ 0#4 := by
  have mask_and : 15#4 &&& cc = cc := BitVec.allOnes_and
  rw [conditionMet_iff, mask_and]

/-- The test chooses between the execute stage and the skip (R94, R95). -/
theorem exec_eq_ite (i : Instr) (s : State) :
    exec i s = .next (if conditionMet i.fields.cond s.cc then executed i s else s.advancePc) := exec_eq i s

end Sys2Proof.Machine

namespace Sys2Proof.Proofs

open Sys2Proof.Machine Sys2Proof.Safety

/-- Settles O9: the test under ALWAYS, under a single flag, and for the masks NEVER and ALWAYS. -/
theorem maskBitsDecideExecution : Obligations.MaskBitsDecideExecution := by
  intro i s
  refine ⟨fun always => ?_, fun b hb single => ?_, fun never => ?_, fun mask legal => ?_⟩
  · rw [exec_eq_ite, always, conditionMet_under_always]
    simp only [decide_eq_true_eq, ite_not]
  · rw [exec_eq_ite, single, conditionMet_under_single _ hb]
  · refine exec_of_skipped ?_
    rw [never]
    exact conditionMet_never s.cc
  · refine exec_of_met ?_
    rw [mask]
    exact (conditionMet_always_iff s.cc).mpr (ne_zero_of_ccLegal legal)

end Sys2Proof.Proofs
end

section
/-! SUPPORT. The remainder of DIV (R112) and the value an arithmetic instruction writes (R113, R115). -/

namespace Sys2Proof.Machine

open Sys2Proof.Safety

/-! ### the remainder -/

/-- The remainder of the floor quotient is smaller than the divisor and of its sign. -/
theorem fmod_size_and_sign (a : Int) {b : Int} (hb : b ≠ 0) :
    |a.fmod b| < |b| ∧ (a.fmod b = 0 ∨ (0 < a.fmod b ∧ 0 < b) ∨ (a.fmod b < 0 ∧ b < 0)) := by
  rcases lt_or_gt_of_ne hb with neg | pos
  · have lower := Int.fmod_nonneg_of_pos (-a) (b := -b) (by omega)
    have upper := Int.fmod_lt_of_pos (-a) (b := -b) (by omega)
    rw [Int.neg_fmod_neg] at lower upper
    rw [abs_of_nonpos (by omega), abs_of_neg neg]
    omega
  · have lower := Int.fmod_nonneg_of_pos a pos
    have upper := Int.fmod_lt_of_pos a pos
    rw [abs_of_nonneg lower, abs_of_pos pos]
    omega

/-- A range-tested result without V is the exact one (R115). -/
theorem eq_of_rangeTested {e v : Int} {fl : Flag} (h : rangeTested e = (v, fl)) (no_error : fl ≠ .v) : v = e := by
  by_cases inside : Representable e
  · rw [rangeTested_of_representable inside] at h
    cases h
    rfl
  · rw [rangeTested_of_not_representable inside] at h
    cases h
    exact absurd rfl no_error

/-- A quotient without V is the floor quotient by a divisor that is not 0 (R112, R114). -/
theorem alu_div_inv {a b q : Int} {fl : Flag} (h : alu .div a b = some (q, fl)) (no_error : fl ≠ .v) :
    b ≠ 0 ∧ q = a.fdiv b := by
  by_cases hb : b = 0
  · rw [hb, alu_div_zero] at h
    cases h
    exact absurd rfl no_error
  · rw [alu, if_neg hb] at h
    exact ⟨hb, eq_of_rangeTested (Option.some.inj h) no_error⟩

/-! ### the word written -/

/-- A word and flag as an arithmetic instruction leaves them: an error is 0 with V, and any other word comes with
its class (R113). -/
def ClassifiedWord (w : Word) (cc : BitVec 4) : Prop := (cc = 8#4 ∧ w = 0#32) ∨ cc = classBits (val w)

theorem ClassifiedWord.of_resultOf {e : Int} {w : Word} {cc : BitVec 4} (h : ResultOf e w cc) :
    ClassifiedWord w cc := by
  obtain ⟨in_range, overflow⟩ := h
  by_cases inside : Representable e
  · obtain ⟨value, flag⟩ := in_range inside
    rw [← value] at flag
    exact .inr flag
  · obtain ⟨value, flag⟩ := overflow inside
    exact .inl ⟨flag, value⟩

/-- The bits of one flag (R28). -/
def SingleFlag (cc : BitVec 4) : Prop := cc = 1#4 ∨ cc = 2#4 ∨ cc = 4#4 ∨ cc = 8#4

theorem SingleFlag.bits (fl : Flag) : SingleFlag fl.bits := by unfold SingleFlag; cases fl <;> decide

theorem ClassifiedWord.singleFlag {w : Word} {cc : BitVec 4} (h : ClassifiedWord w cc) : SingleFlag cc := by
  obtain ⟨rfl, -⟩ | rfl := h
  · exact SingleFlag.bits .v
  · rw [← classOf_bits]
    exact SingleFlag.bits _

/-- An executed well-formed arithmetic instruction has one effect, a classified word in its target. -/
theorem exec_arithmetic {i : Instr} {s : State} (ha : Arithmetic i) (hi : i.wellFormed = true)
    (hc : Executes i.fields s) :
    ∃ t w cc, exec i s = .next t ∧ TargetEffect i.fields s t w cc ∧ ClassifiedWord w cc := by
  have tested {e : Int}
      (answer : alu i.op (val (s.reg i.fields.src1)) (secondOperand i.fields s) = some (rangeTested e)) :
      ∃ t w cc, exec i s = .next t ∧ TargetEffect i.fields s t w cc ∧ ClassifiedWord w cc := by
    obtain ⟨t, w, cc, runs, effect, result⟩ := exec_resultOf hi hc ha.actionOf_eq answer
    exact ⟨t, w, cc, runs, effect, .of_resultOf result⟩
  cases i with
  | halt f => exact ha.elim
  | load f => exact ha.elim
  | store f => exact ha.elim
  | add f => exact tested rfl
  | sub f => exact tested rfl
  | mul f => exact tested rfl
  | div f =>
    by_cases divisor : secondOperand f s = 0
    · have answer : alu .div (val (s.reg f.src1)) (secondOperand f s) = some (0, .v) := by rw [divisor, alu_div_zero]
      obtain ⟨t, runs, effect⟩ := exec_targetEffect hi hc rfl answer
      exact ⟨t, _, _, runs, effect, .inl ⟨rfl, rfl⟩⟩
    · exact tested (alu_div_of_ne _ divisor)

end Sys2Proof.Machine

namespace Sys2Proof.Proofs

open Sys2Proof.Machine Sys2Proof.Safety

/-- Settles O20: without V the quotient is the floor quotient, and its remainder is `Int.fmod`. -/
theorem floorQuotientLeavesRemainderOfDivisorsSign : Obligations.FloorQuotientLeavesRemainderOfDivisorsSign := by
  intro in1 in2 q fl h no_error
  obtain ⟨nonzero, rfl⟩ := alu_div_inv h no_error
  exact ⟨in1.fmod in2, (Int.fdiv_mul_add_fmod in1 in2).symm, fmod_size_and_sign in1 nonzero⟩

/-- Settles O16: each of the four has a classified word in its target as its one effect. -/
theorem arithmeticValueAndFlagAgree : Obligations.ArithmeticValueAndFlagAgree := by
  intro f s t i hf hc hi h
  have four : Arithmetic i ∧ i.fields = f := by
    rcases hi with rfl | rfl | rfl | rfl
    · exact ⟨trivial, rfl⟩
    · exact ⟨trivial, rfl⟩
    · exact ⟨trivial, rfl⟩
    · exact ⟨trivial, rfl⟩
  obtain ⟨four, rfl⟩ := four
  obtain ⟨u, w, cc, runs, ⟨target, -, -, -, rfl, hh, hfault, hm⟩, classified⟩ := exec_arithmetic four hf hc
  cases h.symm.trans runs
  refine ⟨hfault, hh, hm, classified.singleFlag, fun nonzero => ?_⟩
  rw [target nonzero]
  exact classified

end Sys2Proof.Proofs
end

section
/-! SUPPORT. LOAD and STORE that complete (R116, R140, R141), and a stored word read again: by a LOAD, and by the
next fetch. -/

namespace Sys2Proof.Machine

open Sys2Proof.Safety

/-! ### accesses inside memory -/

theorem not_outside_of_read {s : State} {a : Int} {d : Word} (h : s.mem.read? a = some d) : ¬Outside s a := by
  intro outside
  rw [Memory.read?_eq_none.mpr ((outside_iff_inRange_eq_false s a).mp outside)] at h
  cases h

theorem not_outside_of_write {s : State} {a : Int} {d : Word} {m : Memory} (h : s.mem.write? a d = some m) :
    ¬Outside s a :=
  (not_outside_iff_inRange s a).mpr (Memory.write?_eq_some h).1

/-- An executed LOAD without a fault has read the word it writes (R140). -/
theorem exec_load_completed {f : Fields} {s t : State} (hc : Executes f s) (h : exec (.load f) s = .next t)
    (completed : t.faulted = none) :
    ∃ d, f.target < 16 ∧ s.mem.read? (effectiveAddress f s) = some d ∧
      t = (s.advancePc.setReg f.target d).setCc (classOf (effectiveAddress f s)).bits := by
  cases exec_leaves h with
  | skip not_executed => exact absurd hc not_executed
  | load _ ht hd => exact ⟨_, ht, hd, rfl⟩
  | arithmetic no => exact no.elim
  | outside => cases completed
  | badIndex => cases completed

/-- An executed STORE without a fault has replaced memory by its one write (R141). -/
theorem exec_store_completed {f : Fields} {s t : State} (hc : Executes f s) (h : exec (.store f) s = .next t)
    (completed : t.faulted = none) :
    ∃ m, s.mem.write? (effectiveAddress f s) (s.advancePc.reg f.target) = some m ∧
      t = (s.advancePc.setMem m).setCc (classOf (effectiveAddress f s)).bits := by
  cases exec_leaves h with
  | skip not_executed => exact absurd hc not_executed
  | store _ hm => exact ⟨_, hm, rfl⟩
  | arithmetic no => exact no.elim
  | outside => cases completed
  | badIndex => cases completed

/-! ### the next address -/

/-- One more than a register value below WMAX does not wrap (R26). -/
theorem val_add_one {w : Word} (h : val w < 2147483647) : val (w + 1#32) = val w + 1 := by
  have lower := (val_range w).1
  have sum : w + 1#32 = pat (val w + 1) := by
    rw [pat, BitVec.ofInt_add, ← pat, pat_val]
    rfl
  rw [sum, val_pat (by omega) (by omega)]

/-- The address after a fetch from a memory of a legal size is the exact next one (R26, R50). -/
theorem val_pc_add_one {s : State} {w : Word} (hm : s.mem.wf = true) (hw : s.fetch? = some w) :
    val (s.pc + 1#32) = val s.pc + 1 := by
  have inside := not_or.mp (not_outside_of_read hw)
  simp only [Memory.wf, Bool.and_eq_true, decide_eq_true_eq] at hm
  obtain ⟨⟨-, size_le⟩, -⟩ := hm
  have size_le : s.mem.size ≤ 2147483647 := size_le
  exact val_add_one (by omega)

end Sys2Proof.Machine

namespace Sys2Proof.Proofs

open Sys2Proof.Machine Sys2Proof.Safety

/-- Settles O25: the ALU adds, and an access that completes is inside memory, where the class is Z or P. -/
theorem addressClassIsZeroOrPositive : Obligations.AddressClassIsZeroOrPositive := by
  refine ⟨fun op in1 in2 hop => ⟨classOf (in1 + in2), ?_, classOf_bits _⟩, fun f s t i hi hc h _ completed => ?_⟩
  · rcases hop with rfl | rfl
    · rfl
    · rfl
  · rcases hi with rfl | rfl
    · obtain ⟨d, -, hd, rfl⟩ := exec_load_completed hc h completed
      exact classOf_bits_of_not_outside (not_outside_of_read hd)
    · obtain ⟨m, hm, rfl⟩ := exec_store_completed hc h completed
      exact classOf_bits_of_not_outside (not_outside_of_write hm)

/-- Settles O26: the LOAD reads the memory the STORE wrote, at the address written. -/
theorem storedWordIsLoadedBack : Obligations.StoredWordIsLoadedBack := by
  intro f g s t u hcf hcg _ stored loaded hs hl same_address nonzero
  obtain ⟨m, hm, rfl⟩ := exec_store_completed hcf hs stored
  obtain ⟨d, ht, hd, rfl⟩ := exec_load_completed hcg hl loaded
  rw [same_address, State.setCc_mem, State.setMem_mem, Memory.read?_write?_same hm] at hd
  cases hd
  rw [State.setCc_reg, State.reg_setReg_same _ _ _ nonzero ht, State.advancePc_reg]

/-- Settles O27: the next pc is the address stored to, so the next fetch reads the word stored. -/
theorem storeIsSeenByTheNextFetch : Obligations.StoreIsSeenByTheNextFetch := by
  intro f s t w i running hwf hw hd hc next_address h completed stored
  have next_pc := val_pc_add_one hwf hw
  rw [step_of_instruction running hw hd] at h
  obtain ⟨m, hm, rfl⟩ := exec_store_completed hc h completed
  rw [← State.advancePc_reg] at stored
  refine step_of_instruction running ?_ stored
  rw [State.fetch?, State.setCc_mem, State.setMem_mem, State.setCc_pc, State.setMem_pc, State.advancePc_pc, next_pc,
    ← next_address]
  exact Memory.read?_write?_same hm

end Sys2Proof.Proofs
end

section
/-! SUPPORT. What a step does to memory, to `CC` and to the pc, and what it leaves at a fault. -/

namespace Sys2Proof.Machine

open Sys2Proof.Safety

/-! ### memory -/

/-- A step leaves memory alone, or memory is the one write of the STORE it fetched and executed. -/
theorem step_mem_cases {s t : State} (h : step s = .next t) :
    t.mem = s.mem ∨
    ∃ w f d, s.fetch? = some w ∧ decode w = .instruction (.store f) ∧ Executes f s ∧
      s.mem.write? (effectiveAddress f s) d = some t.mem := by
  obtain ⟨-, -, ⟨-, rfl⟩ | ⟨w, e, -, -, rfl⟩ | ⟨w, i, hw, hd, hi⟩⟩ := step_cases h
  · exact .inl rfl
  · exact .inl rfl
  · cases exec_leaves hi with
    | skip => exact .inl rfl
    | halt => exact .inl rfl
    | load => exact .inl rfl
    | store hc hm => exact .inr ⟨w, _, _, hw, hd, hc, hm⟩
    | arithmetic => exact .inl rfl
    | outside => exact .inl rfl
    | badIndex bad => exact absurd (decode_wellFormed hd) bad

/-! ### the flag -/

/-- The step from `s` to `t` executes a flag writer, and without a fault (R29). -/
def WroteFlag (s t : State) : Prop :=
  ∃ w i, s.mem.read? (val s.pc) = some w ∧ decode w = .instruction i ∧ WritesFlag i ∧ Executes i.fields s ∧
    t.faulted = none

/-- A step writes a single flag or leaves `CC` alone (R29). -/
theorem step_cc_cases {s t : State} (h : step s = .next t) :
    (WroteFlag s t ∧ SingleFlag t.cc) ∨ (¬WroteFlag s t ∧ t.cc = s.cc) := by
  obtain ⟨-, no_fault, ⟨-, rfl⟩ | ⟨w, e, -, -, rfl⟩ | ⟨w, i, hw, hd, hi⟩⟩ := step_cases h
  · exact .inr ⟨fun ⟨_, _, _, _, _, _, completed⟩ => Option.some_ne_none _ completed, rfl⟩
  · exact .inr ⟨fun ⟨_, _, _, _, _, _, completed⟩ => Option.some_ne_none _ completed, rfl⟩
  · have word : s.mem.read? (val s.pc) = some w := hw
    have this_instr : WroteFlag s t ↔ WritesFlag i ∧ Executes i.fields s ∧ t.faulted = none := by
      simp [WroteFlag, word, hd]
    rw [this_instr, writesFlag_iff]
    cases exec_leaves hi with
    | skip not_executed => exact .inr ⟨fun ⟨_, hc, _⟩ => not_executed hc, rfl⟩
    | halt => exact .inr ⟨fun ⟨writes, _⟩ => by simp [Arithmetic] at writes, rfl⟩
    | load hc => exact .inl ⟨⟨.inl ⟨_, .inl rfl⟩, hc, no_fault⟩, .bits _⟩
    | store hc => exact .inl ⟨⟨.inl ⟨_, .inr rfl⟩, hc, no_fault⟩, .bits _⟩
    | arithmetic four hc => exact .inl ⟨⟨.inr four, hc, no_fault⟩, .bits _⟩
    | outside => exact .inr ⟨fun ⟨_, _, completed⟩ => Option.some_ne_none _ completed, rfl⟩
    | badIndex bad => exact absurd (decode_wellFormed hd) bad

/-! ### the pc -/

/-- A write to another register leaves the pc alone (R24). -/
theorem State.setReg_pc_of_ne (s : State) {k : Nat} (w : Word) (h : k ≠ 15) : (s.setReg k w).pc = s.pc :=
  State.reg_setReg_of_ne s k 15 w h.symm

/-- A well-formed instruction that does not write the pc leaves it advanced, faults after the advance included
(R95, R99). -/
theorem exec_pc {i : Instr} {s t : State} (hi : i.wellFormed = true) (h : exec i s = .next t)
    (no_jump : ¬(WritesTarget i ∧ Executes i.fields s ∧ i.fields.target = 15)) : t.pc = s.pc + 1#32 := by
  rw [← State.advancePc_pc]
  cases exec_leaves h with
  | skip => rfl
  | halt => rfl
  | load hc => exact State.setReg_pc_of_ne _ _ fun is_pc => no_jump ⟨trivial, hc, is_pc⟩
  | store => rfl
  | arithmetic four hc =>
    exact State.setReg_pc_of_ne _ _ fun is_pc => no_jump ⟨(writesTarget_iff i).mpr (.inr four), hc, is_pc⟩
  | outside => rfl
  | badIndex bad => exact absurd hi bad

/-- The pc after a write to it. -/
theorem State.setReg_pc_self (s : State) (w : Word) : (s.setReg 15 w).pc = w := State.setPc_pc s w

/-- A running block whose pc is outside memory faults at its fetch there (R91, R151). -/
theorem step_of_outside {s : State} (hs : Running s) (outside : Outside s (val s.pc)) :
    ∃ u, step s = .next u ∧ FaultsWith s u (.addressFault .fetch (val s.pc)) s.pc :=
  ⟨_, step_of_no_fetch hs (s.fetch?_eq_none_iff.mpr outside), faultsWith_raise_self s _⟩

/-! ### the event -/

/-- The step emits its event where the fetch and the decoding succeed (R93). -/
theorem stepEvent_of_instruction {s : State} {w : Word} {i : Instr} (hs : Running s) (hw : s.fetch? = some w)
    (hd : decode w = .instruction i) : stepEvent s = some { pc := s.pc, word := w, instr := i } := by
  obtain ⟨hh, hf⟩ := hs
  simp [stepEvent, hh, hf, hw, hd]

/-- No event where the fetch fails (R93). -/
theorem stepEvent_of_no_fetch {s : State} (hw : s.fetch? = none) : stepEvent s = none := by
  unfold stepEvent
  split
  · rfl
  · rw [hw]

/-- No event where the word is rejected (R93). -/
theorem stepEvent_of_rejected {s : State} {w : Word} {e : DecodeError} (hw : s.fetch? = some w)
    (he : decode w = .rejected e) : stepEvent s = none := by
  simp [stepEvent, hw, he]

end Sys2Proof.Machine

namespace Sys2Proof.Proofs

open Sys2Proof.Machine Sys2Proof.Safety

/-- Settles O6: the step and its event where the word decodes. -/
theorem stepRunsTheDecodedInstruction : Obligations.StepRunsTheDecodedInstruction :=
  fun _ _ _ running hw hd => ⟨step_of_instruction running hw hd, stepEvent_of_instruction running hw hd⟩

/-- Settles O28: memory is as before or has one write, and a write shows at its own address only. -/
theorem onlyStoreChangesMemory : Obligations.OnlyStoreChangesMemory := by
  intro s t h
  rcases step_mem_cases h with same | ⟨w, f, d, hw, hd, hc, written⟩
  · rw [same]
    exact ⟨rfl, fun a changed => absurd rfl changed⟩
  · refine ⟨Memory.write?_size written, fun a changed => ⟨w, f, hw, hd, hc, ?_⟩⟩
    by_contra other
    exact changed (Memory.read?_write?_of_ne written other)

/-- Settles O34: a step writes a single flag or leaves `CC` alone, and ALWAYS is no single flag. -/
theorem flagIsWrittenByFlagWritersOnly : Obligations.FlagIsWrittenByFlagWritersOnly := by
  intro s t h
  rcases step_cc_cases h with ⟨wrote, single⟩ | ⟨not_wrote, same⟩
  · refine ⟨fun _ => single, fun not_wrote => absurd wrote not_wrote, fun _ always => ?_⟩
    rw [always] at single
    exact absurd single (by unfold SingleFlag; decide)
  · exact ⟨fun wrote => absurd wrote not_wrote, fun _ => same, fun not_always => same ▸ not_always⟩

/-- Settles O35: an instruction that does not write the pc advances it, and a legal memory leaves no room to wrap. -/
theorem pcAdvancesByOneUnlessWritten : Obligations.PcAdvancesByOneUnlessWritten := by
  intro s t w i h _ hwf hw hd no_jump
  rw [step_of_instruction (running_of_step h) hw hd] at h
  have advanced := exec_pc (decode_wellFormed hd) h no_jump
  rw [advanced]
  exact ⟨rfl, val_pc_add_one hwf hw⟩

/-- Settles O36: the write of the pc completes with any value, and the next step is the fetch there. -/
theorem badJumpTargetFaultsAtTheNextFetch : Obligations.BadJumpTargetFaultsAtTheNextFetch := by
  intro s w i running hw hd writes hc is_pc inside
  have hi := decode_wellFormed hd
  rw [step_of_instruction running hw hd]
  rcases (writesTarget_iff i).mp writes with ⟨f, rfl⟩ | four
  · have hr := Memory.read?_of_inRange ((not_outside_iff_inRange s _).mp (inside f rfl))
    have is_pc : f.target = 15 := is_pc
    refine ⟨_, exec_load_of_read hi hc hr, running, ?_, fun not_load => absurd rfl (not_load f),
      step_of_outside running⟩
    rintro _ ⟨⟩
    rw [hr, State.setCc_pc, is_pc, State.setReg_pc_self]
  · obtain ⟨v, fl, answer⟩ := alu_op_isSome i (val (s.reg i.fields.src1)) (secondOperand i.fields s)
    refine ⟨_, exec_of_writeBack hi hc four.actionOf_eq answer, running, ?_, fun _ => ⟨v, fl, answer, ?_⟩,
      step_of_outside running⟩
    · rintro f rfl
      exact four.elim
    · rw [State.setCc_pc, is_pc, State.setReg_pc_self]

/-- Settles O41: a record is raised by the fetch or the decoder, before anything is done, or by an access, after the
pc advance; every other outcome leaves none. -/
theorem faultLeavesTheTabulatedState : Obligations.FaultLeavesTheTabulatedState := by
  intro s t r h hr
  obtain ⟨not_halted, no_fault, ⟨hw, rfl⟩ | ⟨w, e, hw, he, rfl⟩ | ⟨w, i, hw, hd, hi⟩⟩ := step_cases h
  · cases hr
    exact .inl ⟨.inl ⟨_, rfl⟩, faultsWith_raise_self s _, stepEvent_of_no_fetch hw⟩
  · cases hr
    exact .inl ⟨.inr rfl, faultsWith_raise_self s _, stepEvent_of_rejected hw he⟩
  · by_cases accesses : ∃ acc a, AccessesOutside s i acc a
    · obtain ⟨acc, a, ha⟩ := accesses
      cases hi.symm.trans (exec_of_accessesOutside (decode_wellFormed hd) ha)
      cases hr
      have kind : (∃ a', FaultKind.addressFault acc a = .addressFault .load a') ∨
          ∃ a', FaultKind.addressFault acc a = .addressFault .store a' := by
        obtain ⟨f, -, -, -, ⟨rfl, -⟩ | ⟨rfl, -⟩⟩ := ha
        · exact .inl ⟨a, rfl⟩
        · exact .inr ⟨a, rfl⟩
      refine .inr ⟨kind, faultsWith_raise_advanced s _, ?_⟩
      rw [stepEvent_of_instruction ⟨not_halted, no_fault⟩ hw hd]
      rfl
    · obtain ⟨u, hu, kept⟩ := exec_faulted_of_not_accessesOutside (decode_wellFormed hd)
        fun acc a ha => accesses ⟨acc, a, ha⟩
      cases hi.symm.trans hu
      rw [kept, no_fault] at hr
      cases hr

end Sys2Proof.Proofs
end

section
/-! SUPPORT. The halted flag is not read: by no instruction (R31) and not by `Step` (R104). -/

namespace Sys2Proof.Machine

open Sys2Proof.Safety

/-! ### the actions on a state with another halted flag -/

theorem writeBack_setHalted (f : Fields) (pre s : State) (v : Int) (fl : Flag) (b : Bool) :
    writeBack f (pre.setHalted b) (s.setHalted b) v fl = (writeBack f pre s v fl).setHalted b := by
  rcases Nat.lt_or_ge f.target 16 with ht | ht
  · rw [writeBack_of_lt _ _ v fl ht, writeBack_of_lt pre s v fl ht]
    rfl
  · rw [writeBack_of_ge _ _ v fl ht, writeBack_of_ge pre s v fl ht]
    rfl

theorem loadWord_setHalted (f : Fields) (pre s : State) (ea : Int) (fl : Flag) (b : Bool) :
    loadWord f (pre.setHalted b) (s.setHalted b) ea fl = (loadWord f pre s ea fl).setHalted b := by
  cases hd : s.mem.read? ea with
  | none =>
    rw [loadWord_of_outside _ (s.setHalted b) fl hd, loadWord_of_outside pre s fl hd]
    rfl
  | some d =>
    rcases Nat.lt_or_ge f.target 16 with ht | ht
    · rw [loadWord_of_read _ (s.setHalted b) fl hd ht, loadWord_of_read pre s fl hd ht]
      rfl
    · rw [loadWord_of_ge _ (s.setHalted b) fl hd ht, loadWord_of_ge pre s fl hd ht]
      rfl

theorem storeWord_setHalted (f : Fields) (pre s : State) (ea : Int) (fl : Flag) (b : Bool) :
    storeWord f (pre.setHalted b) (s.setHalted b) ea fl = (storeWord f pre s ea fl).setHalted b := by
  rcases Nat.lt_or_ge f.target 16 with ht | ht
  · cases hm : s.mem.write? ea (s.reg f.target) with
    | none =>
      rw [storeWord_of_outside _ (s.setHalted b) fl ht hm, storeWord_of_outside pre s fl ht hm]
      rfl
    | some m =>
      rw [storeWord_of_write _ (s.setHalted b) fl ht hm, storeWord_of_write pre s fl ht hm]
      rfl
  · rw [storeWord_of_ge _ _ ea fl ht, storeWord_of_ge pre s ea fl ht]
    rfl

/-- Every action but HALT's carries the flag through. -/
theorem actionOf_setHalted {i : Instr} (hi : ∀ f, i ≠ .halt f) (pre s : State) (v : Int) (fl : Flag) (b : Bool) :
    actionOf i (pre.setHalted b) (s.setHalted b) v fl = (actionOf i pre s v fl).setHalted b := by
  cases i with
  | halt f => exact absurd rfl (hi f)
  | load f => exact loadWord_setHalted f pre s v fl b
  | store f => exact storeWord_setHalted f pre s v fl b
  | add f => exact writeBack_setHalted f pre s v fl b
  | sub f => exact writeBack_setHalted f pre s v fl b
  | mul f => exact writeBack_setHalted f pre s v fl b
  | div f => exact writeBack_setHalted f pre s v fl b

/-! ### the instructions and the cycle -/

/-- `t` and `u` come from states with halted flags `a` and `b`: the flag is carried through and nothing else
differs, or both have halted and nothing differs. -/
def SameButHalted (a b : Bool) (t u : State) : Prop :=
  (t.halted = a ∧ u = t.setHalted b) ∨ (t.halted = true ∧ u = t)

theorem SameButHalted.frame {a b : Bool} {t u : State} (h : SameButHalted a b t u) :
    u.regs = t.regs ∧ u.cc = t.cc ∧ u.mem = t.mem ∧ u.faulted = t.faulted := by
  obtain ⟨-, rfl⟩ | ⟨-, rfl⟩ := h
  · exact ⟨rfl, rfl, rfl, rfl⟩
  · exact ⟨rfl, rfl, rfl, rfl⟩

theorem SameButHalted.halted {a b : Bool} {t u : State} (h : SameButHalted a b t u) :
    (t.halted ≠ a → u.halted = true) ∧ (u.halted ≠ b → t.halted = true) := by
  obtain ⟨carried, rfl⟩ | ⟨halted, rfl⟩ := h
  · exact ⟨fun changed => absurd carried changed, fun changed => absurd rfl changed⟩
  · exact ⟨fun _ => halted, fun _ => halted⟩

/-- An instruction does the same whatever the halted flag (R31). -/
theorem exec_setHalted (i : Instr) (s : State) (b : Bool) :
    ∃ t u, exec i s = .next t ∧ exec i (s.setHalted b) = .next u ∧ SameButHalted s.halted b t u := by
  cases hc : conditionMet i.fields.cond s.cc with
  | false => exact ⟨_, _, exec_of_skipped hc, exec_of_skipped (s := s.setHalted b) hc, .inl ⟨rfl, rfl⟩⟩
  | true =>
    cases hs : sourceOperands i.fields s with
    | none =>
      exact ⟨_, _, exec_of_no_source hc hs, exec_of_no_source (s := s.setHalted b) hc hs, .inl ⟨rfl, rfl⟩⟩
    | some p =>
      obtain ⟨l, r⟩ := p
      obtain ⟨v, fl, ha⟩ := alu_op_isSome i l r
      refine ⟨_, _, exec_of_alu hc hs ha, exec_of_alu (s := s.setHalted b) hc hs ha, ?_⟩
      by_cases is_halt : ∃ f, i = .halt f
      · obtain ⟨f, rfl⟩ := is_halt
        exact .inr ⟨rfl, rfl⟩
      · have not_halt := not_exists.mp is_halt
        exact .inl ⟨actionOf_halted_of_not_halt not_halt s s.advancePc v fl,
          actionOf_setHalted not_halt s s.advancePc v fl b⟩

/-- `Step` answers a next state whatever the halted flag, and does the same (R104). -/
theorem cycle_setHalted (s : State) (b : Bool) :
    ∃ t u, cycle s = .next t ∧ cycle (s.setHalted b) = .next u ∧ SameButHalted s.halted b t u := by
  cases hw : s.fetch? with
  | none =>
    exact ⟨_, _, cycle_of_no_fetch hw, cycle_of_no_fetch (s := s.setHalted b) hw, .inl ⟨rfl, rfl⟩⟩
  | some w =>
    cases hd : decode w with
    | rejected e =>
      exact ⟨_, _, cycle_of_rejected hw hd, cycle_of_rejected (s := s.setHalted b) hw hd, .inl ⟨rfl, rfl⟩⟩
    | instruction i =>
      rw [cycle_of_instruction hw hd, cycle_of_instruction (s := s.setHalted b) hw hd]
      exact exec_setHalted i s b

/-- The block takes a step exactly while it runs (R104). -/
theorem exists_step_iff (s : State) : (∃ t, step s = .next t) ↔ Running s := by
  constructor
  · rintro ⟨t, h⟩
    exact running_of_step h
  · rintro ⟨hh, hf⟩
    obtain ⟨t, -, runs, -⟩ := cycle_setHalted s s.halted
    exact ⟨t, (step_of_running hh hf).trans runs⟩

end Sys2Proof.Machine

namespace Sys2Proof.Proofs

open Sys2Proof.Machine Sys2Proof.Safety

/-- Settles O30: the condition test, the operands and the actions read another field. -/
theorem noInstructionReadsHalted : Obligations.NoInstructionReadsHalted := by
  intro i s b
  obtain ⟨t, u, ht, hu, same⟩ := exec_setHalted i s b
  obtain ⟨hregs, hcc, hmem, hfault⟩ := same.frame
  exact ⟨t, u, ht, hu, hregs, hcc, hmem, hfault, same.halted⟩

/-- Settles O43: the guard of the block, and the cycle, which has none. -/
theorem blockStepsExactlyWhileRunning : Obligations.BlockStepsExactlyWhileRunning := by
  refine ⟨exists_step_iff, fun s b => ?_⟩
  obtain ⟨t, u, ht, hu, same⟩ := cycle_setHalted s b
  exact ⟨t, u, ht, hu, same.frame⟩

end Sys2Proof.Proofs
end

section
/-! SUPPORT. The register file (R23, R24) and the canonical form of memory, which is unique. -/

namespace Sys2Proof.Machine

/-! ### registers -/

/-- A register write that answers is to a register, and is the named update (R25). -/
theorem State.writeReg?_eq_some {s t : State} {r : Nat} {v : Word} (h : s.writeReg? r v = some t) :
    r < 16 ∧ t = s.setReg r v := by
  rcases Nat.lt_or_ge r 16 with hr | hr
  · rw [State.writeReg?_of_lt _ _ _ hr] at h
    exact ⟨hr, (Option.some.inj h).symm⟩
  · rw [State.writeReg?_of_ge _ _ _ hr] at h
    cases h

/-- The instructions' read sees a write to another index nowhere. -/
theorem State.readReg?_setReg_of_ne (s : State) {r q : Nat} (v : Word) (h : q ≠ r) :
    (s.setReg r v).readReg? q = s.readReg? q := by
  rcases Nat.lt_or_ge q 16 with hq | hq
  · rw [State.readReg?_of_lt _ _ hq, State.readReg?_of_lt _ _ hq, State.reg_setReg_of_ne _ _ _ _ h]
  · rw [State.readReg?_of_ge _ _ hq, State.readReg?_of_ge _ _ hq]

/-! ### cells -/

theorem cellsWf_cons {size lo : Nat} {c : Nat × Word} {cs : List (Nat × Word)} :
    cellsWf size lo (c :: cs) = true ↔
      lo ≤ c.1 ∧ c.1 < size ∧ c.2 ≠ Config.unlistedWord ∧ cellsWf size (c.1 + 1) cs = true := by
  simp only [cellsWf, Bool.and_eq_true, decide_eq_true_eq, and_assoc]

theorem lookupCell_head (c : Nat × Word) (cs : List (Nat × Word)) : lookupCell (c :: cs) c.1 = c.2 := if_pos rfl

theorem lookupCell_tail {c : Nat × Word} (cs : List (Nat × Word)) {a : Nat} (h : c.1 ≠ a) :
    lookupCell (c :: cs) a = lookupCell cs a := if_neg h

/-- The two lists give the same word at every address below `size`. -/
def CellsAgree (size : Nat) (cs ds : List (Nat × Word)) : Prop := ∀ a < size, lookupCell cs a = lookupCell ds a

theorem CellsAgree.symm {size : Nat} {cs ds : List (Nat × Word)} (h : CellsAgree size cs ds) :
    CellsAgree size ds cs := fun a ha => (h a ha).symm

/-- A list that agrees with one in canonical form does not start above its first address. -/
theorem CellsAgree.not_below {size lo : Nat} {c : Nat × Word} {cs ds : List (Nat × Word)}
    (h : CellsAgree size (c :: cs) ds) (hc : cellsWf size lo (c :: cs) = true) :
    cellsWf size (c.1 + 1) ds ≠ true := by
  obtain ⟨-, below_size, listed, -⟩ := cellsWf_cons.mp hc
  intro hd
  apply listed
  rw [← lookupCell_head c cs, h _ below_size]
  exact lookupCell_below ds (Nat.lt_succ_self c.1) hd

/-- The first address of a list is not above that of one it agrees with. -/
theorem CellsAgree.head_le {size lo : Nat} {c d : Nat × Word} {cs ds : List (Nat × Word)}
    (h : CellsAgree size (c :: cs) (d :: ds)) (hc : cellsWf size lo (c :: cs) = true)
    (hd : cellsWf size lo (d :: ds) = true) : d.1 ≤ c.1 := by
  by_contra above
  obtain ⟨-, below_size, listed, tail⟩ := cellsWf_cons.mp hd
  exact h.not_below hc (cellsWf_cons.mpr ⟨by omega, below_size, listed, tail⟩)

/-- Agreeing lists in canonical form are equal. -/
theorem cells_eq_of_agree {size : Nat} (cs : List (Nat × Word)) :
    ∀ {lo : Nat} {ds : List (Nat × Word)}, cellsWf size lo cs = true → cellsWf size lo ds = true →
      CellsAgree size cs ds → cs = ds := by
  induction cs with
  | nil =>
    intro lo ds _ hd h
    cases ds with
    | nil => rfl
    | cons d ds => exact absurd rfl (h.symm.not_below hd)
  | cons c cs ih =>
    intro lo ds hc hd h
    cases ds with
    | nil => exact absurd rfl (h.not_below hc)
    | cons d ds =>
      have same_address : c.1 = d.1 := Nat.le_antisymm (h.symm.head_le hd hc) (h.head_le hc hd)
      obtain ⟨-, below_size, -, tail_c⟩ := cellsWf_cons.mp hc
      obtain ⟨-, -, -, tail_d⟩ := cellsWf_cons.mp hd
      have same_word : c.2 = d.2 := by
        rw [← lookupCell_head c cs, h _ below_size, same_address, lookupCell_head]
      obtain rfl : c = d := Prod.ext same_address same_word
      have tails : CellsAgree size cs ds := by
        intro a ha
        by_cases head : c.1 = a
        · rw [← head, lookupCell_below cs (Nat.lt_succ_self c.1) tail_c,
            lookupCell_below ds (Nat.lt_succ_self c.1) tail_d]
        · rw [← lookupCell_tail cs head, h a ha, lookupCell_tail ds head]
      rw [ih tail_c tail_d tails]

/-- Memories of one size that read alike list the same words inside it. -/
theorem Memory.cellsAgree_of_read? {m n : Memory} (hsize : m.size = n.size)
    (hread : ∀ a : Int, m.read? a = n.read? a) : CellsAgree m.size m.cells n.cells := by
  intro a ha
  have same := hread a
  rw [Memory.read?_of_inRange ((Memory.inRange_iff m a).mpr (by omega)),
    Memory.read?_of_inRange ((Memory.inRange_iff n a).mpr (by omega))] at same
  exact Option.some.inj same

theorem Memory.cellsWf_of_wf {m : Memory} (h : m.wf = true) : cellsWf m.size 0 m.cells = true := by
  simp only [Memory.wf, Bool.and_eq_true] at h
  exact h.2

end Sys2Proof.Machine

namespace Sys2Proof.Proofs

open Sys2Proof.Machine Sys2Proof.Safety

/-- Settles O32: the write is the named update of one register, and the pc is register 15. -/
theorem registersHoldWhatIsWritten : Obligations.RegistersHoldWhatIsWritten := by
  intro s t r v nonzero h
  obtain ⟨hr, rfl⟩ := State.writeReg?_eq_some h
  refine ⟨?_, fun q other => State.readReg?_setReg_of_ne s v other, ?_⟩
  · rw [State.readReg?_of_lt _ _ hr, State.reg_setReg_same _ _ _ nonzero hr]
  · rintro rfl
    exact State.setReg_pc_self s v

/-- Settles O39: the cells agree at every address inside memory, and canonical cells that agree are equal. -/
theorem equalMemoriesAreEqualData : Obligations.EqualMemoriesAreEqualData := by
  intro m n hm hn hsize hread
  have wf_n := Memory.cellsWf_of_wf hn
  rw [← hsize] at wf_n
  have same_cells : m.cells = n.cells :=
    cells_eq_of_agree m.cells (Memory.cellsWf_of_wf hm) wf_n (Memory.cellsAgree_of_read? hsize hread)
  cases m
  cases n
  cases hsize
  cases same_cells
  rfl

end Sys2Proof.Proofs
end

section
/-! SUPPORT. The host's part: the end of a block that faults, the run and its loop, and the placing of a word. -/

namespace Sys2Proof.Machine

open Sys2Proof.Safety

/-! ### the run -/

/-- The entry of `run` on a block without a record (R183). -/
theorem runEntry_of_no_fault {s : State} (a : Word) (h : s.faulted = none) :
    runEntry a s = .next ((s.setHalted false).setPc a) := by
  rw [runEntry, h]

/-- The entry of `run` on a faulted block (R170). -/
theorem runEntry_of_faulted {s : State} {r : FaultRecord} (a : Word) (h : s.faulted = some r) :
    runEntry a s = .refused .runOnFaultedBlock := by
  rw [runEntry, h]

/-- `run` is its loop from the state the entry leaves (R183). -/
theorem run_of_runEntry {s t : State} {a : Word} (k : Nat) (h : runEntry a s = .next t) :
    run k s a = .next (runLoop k t) := by
  rw [run, h]

/-- The loop leaves a block that does not run where it is (R104). -/
theorem runLoop_of_not_running (k : Nat) {s : State} (h : ¬Running s) : runLoop k s = s :=
  runLoop_of_stop k (mt (exists_step_iff s).mp h)

/-- A host's run of more than 0 steps that answers has taken the first one. -/
theorem coreRun_succ_inv (M : Host.Core) {k : Nat} {s t : M.State} (h : M.run (k + 1) s = .next t) :
    ∃ u, M.step s = .next u ∧ M.run k u = .next t := by
  rw [coreRun_succ] at h
  split at h
  · next u hu => exact ⟨u, hu, h⟩
  · cases h
  · cases h

/-- While the block still runs after the loop's bound, every step was taken (R103). -/
theorem core_run_of_running (k : Nat) :
    ∀ s : State, Running (runLoop k s) → Host.Core.run Sys2Proof.core k s = .next (runLoop k s) := by
  induction k with
  | zero => exact fun _ _ => rfl
  | succ k ih =>
    intro s h
    by_cases running : Running s
    · obtain ⟨t, ht⟩ := (exists_step_iff s).mpr running
      rw [runLoop_of_next ht] at h ⊢
      exact (core_run_of_next ht).trans (ih t h)
    · rw [runLoop_of_not_running _ running] at h
      exact absurd h running

/-- Once the block has stopped, a longer bound changes nothing (R103, R104). -/
theorem runLoop_add_of_stopped (k n : Nat) :
    ∀ s : State, ¬Running (runLoop k s) → runLoop (k + n) s = runLoop k s := by
  induction k with
  | zero =>
    intro s h
    rw [Nat.zero_add]
    exact runLoop_of_not_running n h
  | succ k ih =>
    intro s h
    rw [Nat.succ_add]
    by_cases running : Running s
    · obtain ⟨t, ht⟩ := (exists_step_iff s).mpr running
      rw [runLoop_of_next ht] at h ⊢
      rw [runLoop_of_next ht, ih t h]
    · rw [runLoop_of_not_running _ running, runLoop_of_not_running _ running]

/-- Where the host's run takes all its steps, the loop ends in the same state (R103). -/
theorem runLoop_of_core_run (k : Nat) :
    ∀ s t : State, Host.Core.run Sys2Proof.core k s = .next t → runLoop k s = t := by
  induction k with
  | zero =>
    rintro s t ⟨⟩
    rfl
  | succ k ih =>
    intro s t h
    obtain ⟨u, hu, rest⟩ := coreRun_succ_inv Sys2Proof.core h
    rw [runLoop_of_next hu]
    exact ih u t rest

/-! ### the placing of a word -/

theorem placeFetchWord_of_inside {s : State} {w : Word} {m : Memory} (h : s.mem.write? (val s.pc) w = some m) :
    placeFetchWord s w = ((s.setHalted false).setFaulted none).setMem m := by
  simp [placeFetchWord, h]

theorem placeFetchWord_of_outside {s : State} {w : Word} {m : Memory} (outside : s.mem.write? (val s.pc) w = none)
    (h : s.mem.write? 0 w = some m) :
    placeFetchWord s w = (((s.setHalted false).setFaulted none).setPc 0#32).setMem m := by
  simp [placeFetchWord, outside, h]

/-- A block with a word of memory runs after the placing, and fetches the word placed. -/
theorem placeFetchWord_fetches {s : State} (w : Word) (hsize : 1 ≤ s.mem.size) :
    Running (placeFetchWord s w) ∧ (placeFetchWord s w).fetch? = some w := by
  cases hm : s.mem.write? (val s.pc) w with
  | some m =>
    rw [placeFetchWord_of_inside hm]
    exact ⟨⟨rfl, rfl⟩, Memory.read?_write?_same hm⟩
  | none =>
    have h0 := Memory.write?_of_inRange w ((Memory.inRange_iff s.mem 0).mpr (by omega))
    rw [placeFetchWord_of_outside hm h0]
    refine ⟨⟨rfl, rfl⟩, ?_⟩
    rw [State.fetch?, State.setMem_pc, State.setPc_pc, State.setMem_mem]
    exact Memory.read?_write?_same h0

/-- The bits of a row of 32 are the word. -/
theorem State.withFetchWord_toNat (s : State) (w : Word) : s.withFetchWord 32 w.toNat = placeFetchWord s w := by
  rw [State.withFetchWord, Nat.mod_eq_of_lt w.isLt, BitVec.ofNat_toNat, BitVec.setWidth_eq]

end Sys2Proof.Machine

namespace Sys2Proof.Proofs

open Sys2Proof.Machine Sys2Proof.Safety

/-- Settles O42: the guard of the block, the refusal of `run`, the loop of a block that takes no step, and reset. -/
theorem faultIsFinal : Obligations.FaultIsFinal := by
  refine ⟨fun s r h => ?_, fun s t h => (running_of_step h).2⟩
  have not_running : ¬Running s := fun running => Option.some_ne_none r (h.symm.trans running.2)
  exact ⟨step_of_faulted h, fun a => runEntry_of_faulted a h, fun k => runLoop_of_not_running k not_running, rfl, rfl⟩

/-- Settles O47: the entry is two updates of the state, which then runs and fetches at the address given. -/
theorem runEntrySetsOnlyPcAndHalted : Obligations.RunEntrySetsOnlyPcAndHalted := by
  intro s a no_fault
  have entry := runEntry_of_no_fault a no_fault
  have at_address : ((s.setHalted false).setPc a).pc = a := State.setPc_pc _ a
  refine ⟨_, entry, rfl, at_address, fun r hr => State.setPc_reg_of_ne _ r a (Nat.ne_of_lt hr), rfl, no_fault,
    ⟨rfl, fun _ => rfl⟩, fun k => run_of_runEntry k entry, fun _ => rfl, fun outside => ?_⟩
  have fetch_faults := step_of_outside (s := (s.setHalted false).setPc a) ⟨rfl, no_fault⟩
  rw [at_address] at fetch_faults
  exact fetch_faults outside

/-- Settles O48: three inductions on the bound, each with the first step taken or not. -/
theorem runLoopStopsOnlyHaltedOrFaulted : Obligations.RunLoopStopsOnlyHaltedOrFaulted :=
  ⟨core_run_of_running, runLoop_add_of_stopped, runLoop_of_core_run⟩

/-- Settles O49: the placed word is fetched by a running block. -/
theorem placedWordRunsNext : Obligations.PlacedWordRunsNext := by
  intro s w i hsize hd
  rw [State.withFetchWord_toNat]
  obtain ⟨running, hw⟩ := placeFetchWord_fetches w hsize
  exact step_of_instruction running hw hd

end Sys2Proof.Proofs
end

section
/-! SUPPORT. The idioms of R156: ADD, SUB and LOAD with register 0 or 15 in some of their fields. -/

namespace Sys2Proof.Machine

open Sys2Proof.Safety

/-! ### the classes as bits -/

theorem classBits_eq_z_iff (e : Int) : classBits e = 2#4 ↔ e = 0 := by
  rw [← classOf_bits, ← classOf_eq_z_iff]
  cases classOf e <;> decide

theorem classBits_eq_m_iff (e : Int) : classBits e = 1#4 ↔ e < 0 := by
  rw [← classOf_bits, ← classOf_eq_m_iff]
  cases classOf e <;> decide

theorem classBits_eq_p_iff (e : Int) : classBits e = 4#4 ↔ 0 < e := by
  rw [← classOf_bits, ← classOf_eq_p_iff]
  cases classOf e <;> decide

/-- A pattern is determined by its value (R7). -/
theorem val_inj {v w : Word} : val v = val w ↔ v = w := BitVec.toInt_inj

theorem representable_val (w : Word) : Representable (val w) := val_range w

/-- An offset is a register value (R70). -/
theorem representable_offset {k : Int} (hlo : -512 ≤ k) (hhi : k ≤ 511) : Representable k :=
  ⟨by omega, by omega⟩

/-! ### the fields of an idiom -/

theorem wellFormed_mk (c : BitVec 4) {r a b : Nat} {k : Int} (hr : r < 16) (ha : a < 16) (hb : b < 16)
    (hlo : -512 ≤ k) (hhi : k ≤ 511) : (Fields.mk c r a b k).wellFormed = true :=
  (Fields.wellFormed_iff _).mpr ⟨hr, ha, hb, hlo, hhi⟩

/-- With mask ALWAYS an instruction is executed under every `CC` with a bit set (R94). -/
theorem executes_always {s : State} (hcc : s.cc ≠ 0#4) (r a b : Nat) (k : Int) : Executes ⟨15#4, r, a, b, k⟩ s :=
  (conditionMet_iff _ _).mp ((conditionMet_always_iff s.cc).mpr hcc)

/-- With register 0 as the second source the second operand is the offset (R22, R97). -/
theorem secondOperand_zero_reg (c : BitVec 4) (r a : Nat) (k : Int) (s : State) :
    secondOperand ⟨c, r, a, 0, k⟩ s = k := Int.zero_add k

/-- Without an offset the second operand is the register (R97). -/
theorem secondOperand_no_offset (c : BitVec 4) (r a b : Nat) (s : State) :
    secondOperand ⟨c, r, a, b, 0⟩ s = val (s.reg b) := Int.add_zero _

/-! ### ADD and SUB by their exact result -/

/-- An ADD whose exact sum is a register value leaves it with its class (R113, R130). -/
theorem exec_add_of_sum {f : Fields} {s : State} {e : Int} (hf : f.wellFormed = true) (hc : Executes f s)
    (sum : val (s.reg f.src1) + secondOperand f s = e) (inside : Representable e) :
    ∃ t v, exec (.add f) s = .next t ∧ val v = e ∧ TargetEffect f s t v (classBits e) := by
  subst sum
  obtain ⟨t, v, cc, runs, effect, result⟩ := exec_resultOf (i := .add f) hf hc rfl rfl
  obtain ⟨value, rfl⟩ := result.1 inside
  exact ⟨t, v, runs, value, effect⟩

/-- A SUB leaves the result of its exact difference (R113, R115, R131). -/
theorem exec_sub_of_difference {f : Fields} {s : State} {e : Int} (hf : f.wellFormed = true) (hc : Executes f s)
    (difference : val (s.reg f.src1) - secondOperand f s = e) :
    ∃ t v cc, exec (.sub f) s = .next t ∧ TargetEffect f s t v cc ∧ ResultOf e v cc := by
  subst difference
  exact exec_resultOf (i := .sub f) hf hc rfl rfl

/-- With register 0 as its target an instruction leaves registers 0 to 14 alone (R22). -/
theorem lowRegsUnchanged_of_targetEffect {f : Fields} {s t : State} {v : Word} {cc : BitVec 4}
    (h : TargetEffect f s t v cc) (h0 : f.target = 0) : LowRegsUnchanged s t := by
  obtain ⟨-, zero, -, others, -⟩ := h
  intro r hr
  by_cases is_zero : r = 0
  · rw [is_zero, zero, State.reg_zero]
  · exact others r (by omega) (by omega) (by omega)

/-- A SUB into register 0 leaves the flag of its exact difference and no register 0 to 14 changed. -/
theorem exec_compare {s : State} {a b : Nat} {k e : Int} (hcc : s.cc ≠ 0#4) (ha : a < 16) (hb : b < 16)
    (hlo : -512 ≤ k) (hhi : k ≤ 511)
    (difference : val (s.reg a) - secondOperand ⟨15#4, 0, a, b, k⟩ s = e) :
    ∃ t, exec (.sub ⟨15#4, 0, a, b, k⟩) s = .next t ∧ LowRegsUnchanged s t ∧
      (Representable e → t.cc = classBits e) ∧ (¬Representable e → t.cc = 8#4) := by
  obtain ⟨t, v, cc, runs, effect, in_range, overflow⟩ := exec_sub_of_difference
    (wellFormed_mk 15#4 (by decide) ha hb hlo hhi) (executes_always hcc 0 a b k) difference
  have low := lowRegsUnchanged_of_targetEffect effect rfl
  obtain ⟨-, -, -, -, rfl, -⟩ := effect
  exact ⟨t, runs, low, fun inside => (in_range inside).2, fun outside => (overflow outside).2⟩

/-! ### the idioms -/

/-- ADD r, r0, r0[k]: load immediate, absolute jump, and the no-op that sets Z. -/
theorem exec_loadImmediate {s : State} {k : Int} {r : Nat} (hcc : s.cc ≠ 0#4) (hlo : -512 ≤ k) (hhi : k ≤ 511)
    (hr : r < 16) :
    ∃ t v, exec (.add ⟨15#4, r, 0, 0, k⟩) s = .next t ∧ val v = k ∧
      TargetEffect ⟨15#4, r, 0, 0, k⟩ s t v (classBits k) := by
  refine exec_add_of_sum (wellFormed_mk _ hr (by decide) (by decide) hlo hhi) (executes_always hcc r 0 0 k) ?_
    (representable_offset hlo hhi)
  rw [val_reg_zero, secondOperand_zero_reg, Int.zero_add]

/-- ADD r, rA, r0: move, test, and the register jump. -/
theorem exec_move {s : State} {r a : Nat} (hcc : s.cc ≠ 0#4) (hr : r < 16) (ha : a < 16) :
    ∃ t, exec (.add ⟨15#4, r, a, 0, 0⟩) s = .next t ∧
      TargetEffect ⟨15#4, r, a, 0, 0⟩ s t (s.reg a) (classBits (val (s.reg a))) := by
  have sum : val (s.reg a) + secondOperand ⟨15#4, r, a, 0, 0⟩ s = val (s.reg a) := by
    rw [secondOperand_zero_reg, Int.add_zero]
  obtain ⟨t, v, runs, value, effect⟩ := exec_add_of_sum
    (wellFormed_mk _ hr ha (by decide) (by decide) (by decide)) (executes_always hcc r a 0 0) sum
    (representable_val (s.reg a))
  rw [val_inj.mp value] at effect
  exact ⟨t, runs, effect⟩

/-- ADD/c r15, r15, r0[d]: the relative jump, taken. -/
theorem exec_relativeJump {s : State} {c : BitVec 4} {d : Int} (hlo : -512 ≤ d) (hhi : d ≤ 511)
    (hc : c &&& s.cc ≠ 0#4) (inside : Representable (val s.pc + d)) :
    ∃ t v, exec (.add ⟨c, 15, 15, 0, d⟩) s = .next t ∧ val v = val s.pc + d ∧
      TargetEffect ⟨c, 15, 15, 0, d⟩ s t v (classBits (val s.pc + d)) := by
  refine exec_add_of_sum (wellFormed_mk c (by decide) (by decide) (by decide) hlo hhi) hc ?_ inside
  rw [secondOperand_zero_reg, State.pc_eq_reg]

/-- SUB r0, rA, rB: the flag orders the two registers, and V stands for a difference that is no register value. -/
theorem exec_compareRegisters {s : State} {a b : Nat} (hcc : s.cc ≠ 0#4) (ha : a < 16) (hb : b < 16) :
    ∃ t, exec (.sub ⟨15#4, 0, a, b, 0⟩) s = .next t ∧ LowRegsUnchanged s t ∧
      (t.cc = 2#4 ↔ s.reg a = s.reg b) ∧
      (Representable (val (s.reg a) - val (s.reg b)) →
        (t.cc = 1#4 ↔ val (s.reg a) < val (s.reg b)) ∧ (t.cc = 4#4 ↔ val (s.reg b) < val (s.reg a))) ∧
      (¬Representable (val (s.reg a) - val (s.reg b)) → t.cc = 8#4) := by
  have difference : val (s.reg a) - secondOperand ⟨15#4, 0, a, b, 0⟩ s = val (s.reg a) - val (s.reg b) := by
    rw [secondOperand_no_offset]
  obtain ⟨t, runs, low, in_range, overflow⟩ := exec_compare hcc ha hb (by decide) (by decide) difference
  refine ⟨t, runs, low, ?_, fun inside => ?_, overflow⟩
  · by_cases inside : Representable (val (s.reg a) - val (s.reg b))
    · rw [in_range inside, classBits_eq_z_iff, Int.sub_eq_zero, val_inj]
    · refine iff_of_false (by rw [overflow inside]; decide) fun equal => inside ?_
      rw [equal, Int.sub_self]
      exact ⟨by decide, by decide⟩
  · rw [in_range inside, classBits_eq_m_iff, classBits_eq_p_iff]
    omega

/-- SUB r, r0, rA: negate, which only WMIN overflows. -/
theorem exec_negate {s : State} {r a : Nat} (hcc : s.cc ≠ 0#4) (hr : r < 16) (ha : a < 16) :
    ∃ t v, exec (.sub ⟨15#4, r, 0, a, 0⟩) s = .next t ∧
      (val (s.reg a) ≠ -2147483648 →
        val v = -val (s.reg a) ∧ TargetEffect ⟨15#4, r, 0, a, 0⟩ s t v (classBits (-val (s.reg a)))) ∧
      (val (s.reg a) = -2147483648 → v = 0#32 ∧ TargetEffect ⟨15#4, r, 0, a, 0⟩ s t v 8#4) := by
  have difference : val (s.reg 0) - secondOperand ⟨15#4, r, 0, a, 0⟩ s = -val (s.reg a) := by
    rw [val_reg_zero, secondOperand_no_offset, Int.zero_sub]
  have inside_iff : Representable (-val (s.reg a)) ↔ val (s.reg a) ≠ -2147483648 := by
    have range := val_range (s.reg a)
    unfold Representable
    omega
  obtain ⟨t, v, cc, runs, effect, in_range, overflow⟩ := exec_sub_of_difference
    (wellFormed_mk _ hr (by decide) ha (by decide) (by decide)) (executes_always hcc r 0 a 0) difference
  refine ⟨t, v, runs, fun other => ?_, fun least => ?_⟩
  · obtain ⟨value, rfl⟩ := in_range (inside_iff.mpr other)
    exact ⟨value, effect⟩
  · obtain ⟨value, rfl⟩ := overflow fun inside => inside_iff.mp inside least
    exact ⟨value, effect⟩

end Sys2Proof.Machine

namespace Sys2Proof.Proofs

open Sys2Proof.Machine Sys2Proof.Safety

/-- LOAD r15, rA, r0[k]: the indirect jump. -/
theorem exec_indirectJump {s : State} {a : Nat} {k : Int} (hcc : s.cc ≠ 0#4) (ha : a < 16) (hlo : -512 ≤ k)
    (hhi : k ≤ 511) (inside : ¬Outside s (val (s.reg a) + k)) :
    ∃ t, exec (.load ⟨15#4, 15, a, 0, k⟩) s = .next t ∧ s.mem.read? (val (s.reg a) + k) = some t.pc ∧
      t.cc = if val (s.reg a) + k = 0 then 2#4 else 4#4 := by
  have address : effectiveAddress ⟨15#4, 15, a, 0, k⟩ s = val (s.reg a) + k := by
    rw [effectiveAddress, secondOperand_zero_reg]
  rw [← address] at inside ⊢
  obtain ⟨t, d, runs, hd, target, -, -, -, flag, -⟩ := loadReadsMemoryIntoTarget.1 _ s
    (wellFormed_mk _ (by decide) ha (by decide) hlo hhi) (executes_always hcc 15 a 0 k) inside
  have pc_is_word : t.pc = d := target (show 15 ≠ 0 by decide)
  exact ⟨t, runs, pc_is_word ▸ hd, flag⟩

/-- Settles O37: each row of the table is an ADD, SUB or LOAD with its exact result, or a skip. -/
theorem idiomsHaveTheirEffects : Obligations.IdiomsHaveTheirEffects := by
  refine ⟨fun s k r => exec_loadImmediate, fun s r a => exec_move,
    fun s c d hlo hhi => ⟨exec_relativeJump hlo hhi, fun not_met => ?_⟩, fun s a b => exec_compareRegisters,
    fun s a k hcc ha hlo hhi => ?_, fun s r a => exec_negate, fun s a k => exec_indirectJump, fun s => ?_⟩
  · obtain ⟨t, runs, advanced, -, flag, -⟩ := skippedInstructionOnlyAdvancesPc (.add ⟨c, 15, 15, 0, d⟩) s not_met
    exact ⟨t, runs, advanced, flag⟩
  · exact exec_compare hcc ha (by decide) hlo hhi (by rw [secondOperand_zero_reg])
  · exact skippedInstructionOnlyAdvancesPc (.add ⟨0#4, 0, 0, 0, 0⟩) s BitVec.zero_and

end Sys2Proof.Proofs
end
